-- ==== Sys2Proof/Word.lean ====
section
/-! DEFINITION. The word types of CHIP8-CORE (spec rules R9 to R11, R22, R26, R81). All values are unsigned and
nothing in the machine sign-extends (R22). -/

namespace Sys2Proof

/-- One byte: a general register, a timer, a memory cell, the immediate kk (R9, R13, R60, R81). -/
abbrev Byte := BitVec 8

/-- Sixteen bits: an instruction word, the program counter, a stack entry (R11, R12, R80). -/
abbrev Word := BitVec 16

/-- Twelve bits: a memory address, the index register, the field nnn (R10, R81). -/
abbrev Addr := BitVec 12

/-- Four bits: one nibble of an instruction word (R26). -/
abbrev Nibble := BitVec 4

/-- The number of a general register, 0x0 to 0xF (R9); also the number of a key (R15). -/
abbrev RegIx := Fin 16

/-- The register number of VF (R23). -/
abbrev vf : RegIx := 15

end Sys2Proof
end

