-- ==== Sys2Proof/Syntax.lean ====
section
/-! DEFINITION. The 34 instructions of base CHIP-8, one constructor for each row of spec/opcode_table.json (R85). -/

namespace Sys2Proof

/-- The instructions, in the order of the opcode table. Operands (R81, R83): `x`, `y` register numbers, `kk` an 8-bit
immediate, `nnn` a 12-bit absolute address, `n` a count. The ignored field y of 8xy6 and 8xyE is no operand (R86). -/
inductive Instr where
  /-- 00E0 `CLS` (R180) -/
  | cls
  /-- 00EE `RET` (R130) -/
  | ret
  /-- 1nnn `JP nnn` (R131) -/
  | jp (nnn : Addr)
  /-- 2nnn `CALL nnn` (R133) -/
  | call (nnn : Addr)
  /-- 3xkk `SE Vx, kk` (R135) -/
  | seVxKk (x : RegIx) (kk : Byte)
  /-- 4xkk `SNE Vx, kk` (R136) -/
  | sneVxKk (x : RegIx) (kk : Byte)
  /-- 5xy0 `SE Vx, Vy` (R137) -/
  | seVxVy (x y : RegIx)
  /-- 6xkk `LD Vx, kk` (R150) -/
  | ldVxKk (x : RegIx) (kk : Byte)
  /-- 7xkk `ADD Vx, kk` (R152) -/
  | addVxKk (x : RegIx) (kk : Byte)
  /-- 8xy0 `LD Vx, Vy` (R151) -/
  | ldVxVy (x y : RegIx)
  /-- 8xy1 `OR Vx, Vy` (R153) -/
  | orVxVy (x y : RegIx)
  /-- 8xy2 `AND Vx, Vy` (R154) -/
  | andVxVy (x y : RegIx)
  /-- 8xy3 `XOR Vx, Vy` (R155) -/
  | xorVxVy (x y : RegIx)
  /-- 8xy4 `ADD Vx, Vy` (R156) -/
  | addVxVy (x y : RegIx)
  /-- 8xy5 `SUB Vx, Vy` (R157) -/
  | subVxVy (x y : RegIx)
  /-- 8xy6 `SHR Vx` (R158) -/
  | shrVx (x : RegIx)
  /-- 8xy7 `SUBN Vx, Vy` (R159) -/
  | subnVxVy (x y : RegIx)
  /-- 8xyE `SHL Vx` (R160) -/
  | shlVx (x : RegIx)
  /-- 9xy0 `SNE Vx, Vy` (R138) -/
  | sneVxVy (x y : RegIx)
  /-- Annn `LD I, nnn` (R225) -/
  | ldINnn (nnn : Addr)
  /-- Bnnn `JP V0, nnn` (R132) -/
  | jpV0 (nnn : Addr)
  /-- Cxkk `RND Vx, kk` (R161) -/
  | rndVxKk (x : RegIx) (kk : Byte)
  /-- Dxyn `DRW Vx, Vy, n` (R181); the height `n` is a count, 0 to 15 (R83) -/
  | drw (x y : RegIx) (n : Nat)
  /-- Ex9E `SKP Vx` (R200) -/
  | skpVx (x : RegIx)
  /-- ExA1 `SKNP Vx` (R201) -/
  | sknpVx (x : RegIx)
  /-- Fx07 `LD Vx, DT` (R202) -/
  | ldVxDt (x : RegIx)
  /-- Fx0A `LD Vx, K` (R205) -/
  | ldVxK (x : RegIx)
  /-- Fx15 `LD DT, Vx` (R203) -/
  | ldDtVx (x : RegIx)
  /-- Fx18 `LD ST, Vx` (R204) -/
  | ldStVx (x : RegIx)
  /-- Fx1E `ADD I, Vx` (R226) -/
  | addIVx (x : RegIx)
  /-- Fx29 `LD F, Vx` (R227) -/
  | ldFVx (x : RegIx)
  /-- Fx33 `LD B, Vx` (R228) -/
  | ldBVx (x : RegIx)
  /-- Fx55 `LD [I], Vx` (R229) -/
  | ldMemVx (x : RegIx)
  /-- Fx65 `LD Vx, [I]` (R230) -/
  | ldVxMem (x : RegIx)
deriving DecidableEq, Repr

end Sys2Proof
end

