-- ==== Sys2Proof/Decode.lean ====
section
/-! DEFINITION. Decoding and encoding (spec/30_encoding.md; the bit patterns are those of R82, R85 and
spec/opcode_table.json). -/

namespace Sys2Proof

/-- Why bytes are no instruction. -/
inductive DecodeError where
  /-- the word matches none of the 34 patterns (R87) -/
  | invalidOpcode (op : Word)
  /-- fewer than two bytes are left (R80: an instruction is exactly two bytes) -/
  | truncated
deriving DecidableEq, Repr

namespace Decode

/-- N1 = op[15:12], the group (R26, R81). -/
def n1 (op : Word) : Nibble := op.extractLsb' 12 4
/-- x = op[11:8] as a register number (R26). -/
def x (op : Word) : RegIx := (op.extractLsb' 8 4).toFin
/-- y = op[7:4] as a register number (R26). -/
def y (op : Word) : RegIx := (op.extractLsb' 4 4).toFin
/-- n = op[3:0]; also the sub-opcode of groups 5, 8 and 9 (R81). -/
def n (op : Word) : Nibble := op.extractLsb' 0 4
/-- kk = op[7:0]; also the sub-opcode of groups E and F (R81). -/
def kk (op : Word) : Byte := op.extractLsb' 0 8
/-- nnn = op[11:0] (R26). -/
def nnn (op : Word) : Addr := op.extractLsb' 0 12

/-- Group 8: the sub-opcode is the low nibble (R85). -/
def group8 (op : Word) : Option Instr :=
  match n op with
  | 0x0#4 => some (.ldVxVy (x op) (y op))
  | 0x1#4 => some (.orVxVy (x op) (y op))
  | 0x2#4 => some (.andVxVy (x op) (y op))
  | 0x3#4 => some (.xorVxVy (x op) (y op))
  | 0x4#4 => some (.addVxVy (x op) (y op))
  | 0x5#4 => some (.subVxVy (x op) (y op))
  | 0x6#4 => some (.shrVx (x op))
  | 0x7#4 => some (.subnVxVy (x op) (y op))
  | 0xE#4 => some (.shlVx (x op))
  | _ => none

/-- Group E: the sub-opcode is the low byte (R85). -/
def groupE (op : Word) : Option Instr :=
  match kk op with
  | 0x9E#8 => some (.skpVx (x op))
  | 0xA1#8 => some (.sknpVx (x op))
  | _ => none

/-- Group F: the sub-opcode is the low byte (R85). -/
def groupF (op : Word) : Option Instr :=
  match kk op with
  | 0x07#8 => some (.ldVxDt (x op))
  | 0x0A#8 => some (.ldVxK (x op))
  | 0x15#8 => some (.ldDtVx (x op))
  | 0x18#8 => some (.ldStVx (x op))
  | 0x1E#8 => some (.addIVx (x op))
  | 0x29#8 => some (.ldFVx (x op))
  | 0x33#8 => some (.ldBVx (x op))
  | 0x55#8 => some (.ldMemVx (x op))
  | 0x65#8 => some (.ldVxMem (x op))
  | _ => none

/-- The opcode map by first nibble (R85). -/
def byGroup (op : Word) : Option Instr :=
  match n1 op with
  | 0x0#4 => if op = 0x00E0#16 then some .cls else if op = 0x00EE#16 then some .ret else none
  | 0x1#4 => some (.jp (nnn op))
  | 0x2#4 => some (.call (nnn op))
  | 0x3#4 => some (.seVxKk (x op) (kk op))
  | 0x4#4 => some (.sneVxKk (x op) (kk op))
  | 0x5#4 => if n op = 0x0#4 then some (.seVxVy (x op) (y op)) else none
  | 0x6#4 => some (.ldVxKk (x op) (kk op))
  | 0x7#4 => some (.addVxKk (x op) (kk op))
  | 0x8#4 => group8 op
  | 0x9#4 => if n op = 0x0#4 then some (.sneVxVy (x op) (y op)) else none
  | 0xA#4 => some (.ldINnn (nnn op))
  | 0xB#4 => some (.jpV0 (nnn op))
  | 0xC#4 => some (.rndVxKk (x op) (kk op))
  | 0xD#4 => some (.drw (x op) (y op) (n op).toNat)
  | 0xE#4 => groupE op
  | 0xF#4 => groupF op
  | _ => none

end Decode

/-- Decoding: a total function of the 16-bit word (R84); a word that matches no pattern is refused by name (R87). -/
def decode (op : Word) : Except DecodeError Instr :=
  match Decode.byGroup op with
  | some i => .ok i
  | none => .error (.invalidOpcode op)

/-- Two bytes as one word, the first byte the high byte (R62, R80). -/
def ofBytes (hi lo : Byte) : Word := BitVec.ofNat 16 (hi.toNat * 256 + lo.toNat)

/-- The high byte of a word, the one at the lower address (R62). -/
def highByte (w : Word) : Byte := w.extractLsb' 8 8

/-- The low byte of a word. -/
def lowByte (w : Word) : Byte := w.extractLsb' 0 8

/-- Decoding from bytes: the first byte is the high byte of the word (R62, R80); the rest of the bytes is returned. -/
def decodeBytes : List Byte → Except DecodeError (Instr × List Byte)
  | hi :: lo :: rest =>
    match decode (ofBytes hi lo) with
    | .ok i => .ok (i, rest)
    | .error e => .error e
  | _ => .error .truncated

/-- Four nibbles, the most significant first, as one word (R26): the formats `xy` and `xyn` of R82. -/
def ofNibbles (a b c d : Nibble) : Word := BitVec.ofNat 16 (a.toNat * 4096 + b.toNat * 256 + c.toNat * 16 + d.toNat)

/-- Two nibbles and a byte as one word: the formats `xkk` and `x` of R82. -/
def ofNibblesByte (a b : Nibble) (k : Byte) : Word := BitVec.ofNat 16 (a.toNat * 4096 + b.toNat * 256 + k.toNat)

/-- A nibble and a 12-bit address as one word: the format `nnn` of R82. -/
def ofNibbleAddr (a : Nibble) (nnn : Addr) : Word := BitVec.ofNat 16 (a.toNat * 4096 + nnn.toNat)

/-- The nibble that names register r. -/
def regNibble (r : RegIx) : Nibble := BitVec.ofFin r

/-- Encoding, by the bit layouts of R82 and the fixed bits of R85. `SHR Vx` and `SHL Vx` are written with y = 0 (R92). -/
def encode : Instr → Word
  | .cls => 0x00E0#16
  | .ret => 0x00EE#16
  | .jp nnn => ofNibbleAddr 0x1#4 nnn
  | .call nnn => ofNibbleAddr 0x2#4 nnn
  | .seVxKk x kk => ofNibblesByte 0x3#4 (regNibble x) kk
  | .sneVxKk x kk => ofNibblesByte 0x4#4 (regNibble x) kk
  | .seVxVy x y => ofNibbles 0x5#4 (regNibble x) (regNibble y) 0x0#4
  | .ldVxKk x kk => ofNibblesByte 0x6#4 (regNibble x) kk
  | .addVxKk x kk => ofNibblesByte 0x7#4 (regNibble x) kk
  | .ldVxVy x y => ofNibbles 0x8#4 (regNibble x) (regNibble y) 0x0#4
  | .orVxVy x y => ofNibbles 0x8#4 (regNibble x) (regNibble y) 0x1#4
  | .andVxVy x y => ofNibbles 0x8#4 (regNibble x) (regNibble y) 0x2#4
  | .xorVxVy x y => ofNibbles 0x8#4 (regNibble x) (regNibble y) 0x3#4
  | .addVxVy x y => ofNibbles 0x8#4 (regNibble x) (regNibble y) 0x4#4
  | .subVxVy x y => ofNibbles 0x8#4 (regNibble x) (regNibble y) 0x5#4
  | .shrVx x => ofNibbles 0x8#4 (regNibble x) 0x0#4 0x6#4
  | .subnVxVy x y => ofNibbles 0x8#4 (regNibble x) (regNibble y) 0x7#4
  | .shlVx x => ofNibbles 0x8#4 (regNibble x) 0x0#4 0xE#4
  | .sneVxVy x y => ofNibbles 0x9#4 (regNibble x) (regNibble y) 0x0#4
  | .ldINnn nnn => ofNibbleAddr 0xA#4 nnn
  | .jpV0 nnn => ofNibbleAddr 0xB#4 nnn
  | .rndVxKk x kk => ofNibblesByte 0xC#4 (regNibble x) kk
  | .drw x y n => ofNibbles 0xD#4 (regNibble x) (regNibble y) (BitVec.ofNat 4 n)
  | .skpVx x => ofNibblesByte 0xE#4 (regNibble x) 0x9E#8
  | .sknpVx x => ofNibblesByte 0xE#4 (regNibble x) 0xA1#8
  | .ldVxDt x => ofNibblesByte 0xF#4 (regNibble x) 0x07#8
  | .ldVxK x => ofNibblesByte 0xF#4 (regNibble x) 0x0A#8
  | .ldDtVx x => ofNibblesByte 0xF#4 (regNibble x) 0x15#8
  | .ldStVx x => ofNibblesByte 0xF#4 (regNibble x) 0x18#8
  | .addIVx x => ofNibblesByte 0xF#4 (regNibble x) 0x1E#8
  | .ldFVx x => ofNibblesByte 0xF#4 (regNibble x) 0x29#8
  | .ldBVx x => ofNibblesByte 0xF#4 (regNibble x) 0x33#8
  | .ldMemVx x => ofNibblesByte 0xF#4 (regNibble x) 0x55#8
  | .ldVxMem x => ofNibblesByte 0xF#4 (regNibble x) 0x65#8

/-- The instruction's two bytes as they stand in memory, the high byte first (R62). -/
def encodeBytes (i : Instr) : List Byte := [highByte (encode i), lowByte (encode i)]

/-- The row of spec/opcode_table.json an instruction belongs to: its `match` value and its `mask` (R84). -/
def tableRow : Instr → Word × Word
  | .cls => (0x00E0#16, 0xFFFF#16)
  | .ret => (0x00EE#16, 0xFFFF#16)
  | .jp _ => (0x1000#16, 0xF000#16)
  | .call _ => (0x2000#16, 0xF000#16)
  | .seVxKk _ _ => (0x3000#16, 0xF000#16)
  | .sneVxKk _ _ => (0x4000#16, 0xF000#16)
  | .seVxVy _ _ => (0x5000#16, 0xF00F#16)
  | .ldVxKk _ _ => (0x6000#16, 0xF000#16)
  | .addVxKk _ _ => (0x7000#16, 0xF000#16)
  | .ldVxVy _ _ => (0x8000#16, 0xF00F#16)
  | .orVxVy _ _ => (0x8001#16, 0xF00F#16)
  | .andVxVy _ _ => (0x8002#16, 0xF00F#16)
  | .xorVxVy _ _ => (0x8003#16, 0xF00F#16)
  | .addVxVy _ _ => (0x8004#16, 0xF00F#16)
  | .subVxVy _ _ => (0x8005#16, 0xF00F#16)
  | .shrVx _ => (0x8006#16, 0xF00F#16)
  | .subnVxVy _ _ => (0x8007#16, 0xF00F#16)
  | .shlVx _ => (0x800E#16, 0xF00F#16)
  | .sneVxVy _ _ => (0x9000#16, 0xF00F#16)
  | .ldINnn _ => (0xA000#16, 0xF000#16)
  | .jpV0 _ => (0xB000#16, 0xF000#16)
  | .rndVxKk _ _ => (0xC000#16, 0xF000#16)
  | .drw _ _ _ => (0xD000#16, 0xF000#16)
  | .skpVx _ => (0xE09E#16, 0xF0FF#16)
  | .sknpVx _ => (0xE0A1#16, 0xF0FF#16)
  | .ldVxDt _ => (0xF007#16, 0xF0FF#16)
  | .ldVxK _ => (0xF00A#16, 0xF0FF#16)
  | .ldDtVx _ => (0xF015#16, 0xF0FF#16)
  | .ldStVx _ => (0xF018#16, 0xF0FF#16)
  | .addIVx _ => (0xF01E#16, 0xF0FF#16)
  | .ldFVx _ => (0xF029#16, 0xF0FF#16)
  | .ldBVx _ => (0xF033#16, 0xF0FF#16)
  | .ldMemVx _ => (0xF055#16, 0xF0FF#16)
  | .ldVxMem _ => (0xF065#16, 0xF0FF#16)

/-- All rows of the opcode table, one instruction standing for each. -/
def tableRows : List (Word × Word) :=
  ([.cls, .ret, .jp 0, .call 0, .seVxKk 0 0, .sneVxKk 0 0, .seVxVy 0 0, .ldVxKk 0 0, .addVxKk 0 0, .ldVxVy 0 0,
    .orVxVy 0 0, .andVxVy 0 0, .xorVxVy 0 0, .addVxVy 0 0, .subVxVy 0 0, .shrVx 0, .subnVxVy 0 0] : List Instr).map tableRow
  ++ ([.shlVx 0, .sneVxVy 0 0, .ldINnn 0, .jpV0 0, .rndVxKk 0 0, .drw 0 0 0, .skpVx 0, .sknpVx 0, .ldVxDt 0, .ldVxK 0,
    .ldDtVx 0, .ldStVx 0, .addIVx 0, .ldFVx 0, .ldBVx 0, .ldMemVx 0, .ldVxMem 0] : List Instr).map tableRow

/-- The first word of an instruction given as a number: bit 0 is the least significant bit of the word; every bit from
nbits on is 0. The longest instruction is one word (R80). -/
def tableWord (nbits w : Nat) : Word := BitVec.ofNat 16 (w % 2 ^ nbits)

/-- The instruction the decoder reads from a table word laid out as the hardware stores it (R62). -/
def decodeTableWord (nbits w : Nat) : Option Instr :=
  match decodeBytes [highByte (tableWord nbits w), lowByte (tableWord nbits w)] with
  | .ok (i, _) => some i
  | .error _ => none

end Sys2Proof
end

