-- ==== Sys2Proof/Machine/Flags.lean ====
section
/-! DEFINITION. The flag values written into VF (R46, R162, R163). The machine has no condition-code register. -/

namespace Sys2Proof.Machine

/-- A flag as VF holds it: 1 or 0. -/
def flagByte (b : Bool) : Byte := if b then 1 else 0

/-- The carry of `ADD Vx, Vy`: the 9-bit sum exceeds 255 (R156). -/
def carryFlag (a b : Byte) : Byte := flagByte (decide (a.toNat + b.toNat > 255))

/-- The flag of `SUB` and `SUBN`: the minuend is strictly greater than the subtrahend (R157, R159, R162). -/
def greaterFlag (minuend subtrahend : Byte) : Byte := flagByte (decide (minuend.toNat > subtrahend.toNat))

/-- The bit `SHR` shifts out, bit 0 of the source (R158). -/
def shiftOutLow (a : Byte) : Byte := flagByte (a.getLsbD 0)

/-- The bit `SHL` shifts out, bit 7 of the source (R160). -/
def shiftOutHigh (a : Byte) : Byte := flagByte (a.getLsbD 7)

end Sys2Proof.Machine
end

