-- ==== Sys2Proof/Config.lean ====
section
/-! DEFINITION. The parameters the spec leaves to the implementation (R17, R19, R20, R47) and the free values: what
the host supplies with a step and no rule determines (R119, R161, R212). -/

namespace Sys2Proof

/-- `ADDR_OVERFLOW` (R20, R66): what happens to a data address I + k above 0xFFF. -/
inductive AddrOverflow where
  /-- the address is taken modulo 4096, the spec's decided value -/
  | wrap
  /-- the instruction raises MEM_RANGE -/
  | fault
deriving DecidableEq, Repr

/-- The parameters of one machine, fixed for a run. -/
structure Config where
  /-- `FONT_BASE`, the address of the first font byte (R17) -/
  fontBase : Addr
  /-- `FONT_DATA`, 16 glyphs of 5 bytes (R18, R47) -/
  fontData : Vector Byte 80
  /-- `ADDR_OVERFLOW` (R20) -/
  addrOverflow : AddrOverflow
  /-- `CYCLE_HZ`, advice to the host that no rule reads (R19, R116). DESIGN CHOICE: a whole number of hertz; the spec states
  no range for it, and 0 is not excluded (log entry 19). -/
  cycleHz : Nat
deriving DecidableEq, Repr

/-- The constraint of R17: the font lies in the reserved region below 0x200. -/
abbrev Config.Legal (c : Config) : Prop := c.fontBase.toNat + 80 ≤ 0x200

/-- The key snapshot the host supplies with its n-th step when nothing is scheduled: any value (R42, R119).
A free value: it has no body, so no proof can see what it is. -/
opaque Config.freeKeys : Nat → BitVec 16

/-- The random byte of the n-th step when nothing is scheduled: any value 0..255, under no law (R161). A free value. -/
opaque Config.freeRnd : Nat → Byte

/-- How many ticks the host delivers between the n-th step and the next when nothing is scheduled: any number (R212).
A free value. -/
opaque Config.freeTicks : Nat → Nat

/-- The desired period under `CYCLE_HZ = 0`, whose reciprocal the spec does not state (R19, R116): any number of seconds
(DESIGN CHOICE, log entry 19). A free value. -/
opaque Config.freePeriod : ℚ

end Sys2Proof
end

