-- ==== Sys2Proof/Machine/ResetValues.lean ====
section
/-! DEFINITION. The values reset gives (R16, R41, R49) and the default parameters (R17, R19, R20, R47). -/

namespace Sys2Proof.Machine

/-- The program counter after reset (R16, R33, R49). -/
def resetPc : Word := 0x200

/-- `FONT_DATA`, glyphs 0 to 7 (R47). -/
def fontLow : List Byte :=
  [0xF0, 0x90, 0x90, 0x90, 0xF0] ++ [0x20, 0x60, 0x20, 0x20, 0x70] ++ [0xF0, 0x10, 0xF0, 0x80, 0xF0]
  ++ [0xF0, 0x10, 0xF0, 0x10, 0xF0] ++ [0x90, 0x90, 0xF0, 0x10, 0x10] ++ [0xF0, 0x80, 0xF0, 0x10, 0xF0]
  ++ [0xF0, 0x80, 0xF0, 0x90, 0xF0] ++ [0xF0, 0x10, 0x20, 0x40, 0x40]

/-- `FONT_DATA`, glyphs 8 to F (R47). -/
def fontHigh : List Byte :=
  [0xF0, 0x90, 0xF0, 0x90, 0xF0] ++ [0xF0, 0x90, 0xF0, 0x10, 0xF0] ++ [0xF0, 0x90, 0xF0, 0x90, 0x90]
  ++ [0xE0, 0x90, 0xE0, 0x90, 0xE0] ++ [0xF0, 0x80, 0x80, 0x80, 0xF0] ++ [0xE0, 0x90, 0x90, 0x90, 0xE0]
  ++ [0xF0, 0x80, 0xF0, 0x80, 0xF0] ++ [0xF0, 0x80, 0xF0, 0x80, 0x80]

/-- The 80 bytes of `FONT_DATA` (R47), as the spec's default. -/
def defaultFont : Vector Byte 80 := ⟨(fontLow ++ fontHigh).toArray, by decide⟩

/-- The spec's decided parameters: `FONT_BASE = 0x050` (R17), the font of R47, `ADDR_OVERFLOW = wrap` (R20),
`CYCLE_HZ = 700` (R19). -/
def defaultConfig : Config :=
  { fontBase := 0x050, fontData := defaultFont, addrOverflow := .wrap, cycleHz := 700 }

end Sys2Proof.Machine
end

