-- ==== Sys2Proof/Machine/State.lean ====
section
/-! DEFINITION. The state of CHIP8-CORE (spec/10_state.md) as plain data, the machine's ways to stop, and the state
after reset (R49, R280). -/

namespace Sys2Proof.Machine

/-- The model-level faults: there is none. Every fault the spec describes is a next state with the fault latch written
(R252), so no step ends here. Safe: nothing can be proved about a stop that never happens. -/
inductive Fault where
deriving DecidableEq, Repr

/-- The model-level refusals. -/
inductive Refusal where
  /-- Raised by an arm of `exec` for an instruction that has no meaning yet; no arm does so. Safe: the model stops where
  the hardware goes on. -/
  | notModelled (mnemonic : String)
deriving DecidableEq, Repr

/-- The cause codes of the fault latch (R250). -/
inductive FaultCause where
  /-- code 0: no fault latched -/
  | none
  /-- code 1: the fetched word matches no row of the opcode table -/
  | invalidOpcode
  /-- code 2: CALL with SP = 16 -/
  | stackOverflow
  /-- code 3: RET with SP = 0 -/
  | stackUnderflow
  /-- code 4: a data address passes 0xFFF under ADDR_OVERFLOW = fault -/
  | memRange
  /-- code 5: SKP or SKNP with V[x] above 15 -/
  | keyRange
  /-- code 6: a fetch address below 0x200 -/
  | reservedFetch
deriving DecidableEq, Repr

/-- What the host supplies with one step request (R100, R117): the key snapshot (bit k is key k, 1 = pressed), the random
byte, and the number of ticks it delivers after this step and before the next one (R118, R212). -/
structure StepInput where
  keys : BitVec 16
  rnd : Byte
  ticks : Nat
deriving DecidableEq, Repr

/-- Memory as the cells that differ from the reset contents, addresses strictly rising (R41, R60). -/
abbrev Memory := List Host.Cell

/-- The frame buffer: 32 rows of 64 pixels, row 0 at the top and column 0 at the left (R40). -/
abbrev Frame := Vector (Vector Bool 64) 32

/-- The state: R49's list, the parameters of the machine, and the model's own two fields for the host's inputs. -/
structure State where
  /-- V[0] to V[15] (R30) -/
  v : Vector Byte 16
  /-- PC (R33) -/
  pc : Word
  /-- I (R35) -/
  index : Addr
  /-- SP, the number of stack entries in use (R37) -/
  sp : BitVec 5
  /-- STACK[0] to STACK[15] (R36) -/
  stack : Vector Word 16
  /-- DT (R39) -/
  dt : Byte
  /-- ST (R39) -/
  st : Byte
  /-- FB (R40) -/
  fb : Frame
  /-- MEM (R41) -/
  mem : Memory
  /-- AWAIT (R43) -/
  await : Bool
  /-- FB_CHANGED (R44) -/
  fbChanged : Bool
  /-- FAULT (R45) -/
  fault : Bool
  /-- FAULT_CAUSE (R45, R250) -/
  faultCause : FaultCause
  /-- FAULT_PC (R45) -/
  faultPc : Word
  /-- FAULT_OP (R45) -/
  faultOp : Word
  /-- the parameters of this machine, which nothing changes (log entry 1) -/
  cfg : Config
  /-- model's own: the step inputs the host has already scheduled, the next one first (log entry 2) -/
  inputs : List StepInput
  /-- model's own: how many steps were taken, the argument of the free values (log entry 2) -/
  steps : Nat
deriving DecidableEq, Repr

/-- The state right after reset (R49, R280 to R283), with the spec's default parameters; nothing is scheduled. -/
def State.reset : State where
  v := Vector.replicate 16 0
  pc := resetPc
  index := 0
  sp := 0
  stack := Vector.replicate 16 0
  dt := 0
  st := 0
  fb := Vector.replicate 32 (Vector.replicate 64 false)
  mem := []
  await := false
  fbChanged := false
  fault := false
  faultCause := .none
  faultPc := 0
  faultOp := 0
  cfg := defaultConfig
  inputs := []
  steps := 0

end Sys2Proof.Machine
end

