-- ==== Sys2Proof/Machine/Memory.lean ====
section
/-! DEFINITION. Memory as sparse data over the reset contents (R41, R60, R65, R282). -/

namespace Sys2Proof.Machine

/-- What an unlisted address reads as: the reset contents, the font at FONT_BASE to FONT_BASE + 79 and 0 elsewhere
(R41, R67, R282). -/
def memDefault (c : Config) (a : Nat) : Byte :=
  if c.fontBase.toNat ≤ a then (c.fontData.toList[a - c.fontBase.toNat]?).getD 0 else 0

/-- The listed byte at an address, if any. -/
def memFind : Memory → Nat → Option Byte
  | [], _ => none
  | (k, b) :: rest, a => if k = a then some b else memFind rest a

/-- The byte at an address: the most recent write, or the reset contents (R70). -/
def memRead (c : Config) (m : Memory) (a : Nat) : Byte := (memFind m a).getD (memDefault c a)

/-- Remove every entry of an address. -/
def memErase : Memory → Nat → Memory
  | [], _ => []
  | (k, b) :: rest, a => if k = a then memErase rest a else (k, b) :: memErase rest a

/-- Enter a byte at its place in the rising order of addresses. -/
def memInsert : Memory → Nat → Byte → Memory
  | [], a, b => [(a, b)]
  | (k, c) :: rest, a, b =>
    if a < k then (a, b) :: (k, c) :: rest
    else if a = k then (a, b) :: rest
    else (k, c) :: memInsert rest a b

/-- Write one byte (R24, R65), keeping the canonical form: the value an unlisted address reads as is not listed. -/
def memWrite (c : Config) (m : Memory) (a : Nat) (b : Byte) : Memory :=
  if b = memDefault c a then memErase m a else memInsert m a b

/-- The canonical form: addresses strictly rising from `low` on and below 4096 (R60), and no entry equal to what an
unlisted address reads as. -/
def memWfFrom (c : Config) : Nat → Memory → Bool
  | _, [] => true
  | low, (k, b) :: rest => decide (low ≤ k) && decide (k < 4096) && decide (b ≠ memDefault c k) && memWfFrom c (k + 1) rest

/-- The canonical form of a whole memory. -/
def Memory.wf (c : Config) (m : Memory) : Bool := memWfFrom c 0 m

/-- `MemRead(a, 1)` (R24). -/
def State.readByte (s : State) (a : Addr) : Byte := memRead s.cfg s.mem a.toNat

/-- `MemWrite(a, 1, b)` (R24). -/
def State.writeByte (s : State) (a : Addr) (b : Byte) : State := { s with mem := memWrite s.cfg s.mem a.toNat b }

/-- Write bytes at their addresses, in the order given. -/
def State.writeBytes (s : State) : List (Addr × Byte) → State
  | [] => s
  | (a, b) :: rest => (s.writeByte a b).writeBytes rest

end Sys2Proof.Machine
end

