-- ==== Sys2Proof/Machine/Operands.lean ====
section
/-! DEFINITION. Every operand form of the instruction set (R66, R83, R119, R205, R227, R228). -/

namespace Sys2Proof.Machine

/-- `V[r]` (R23). -/
def State.readV (s : State) (r : RegIx) : Byte := s.v[r]

/-- `V[r] <- b` (R23). -/
def State.writeV (s : State) (r : RegIx) (b : Byte) : State := { s with v := s.v.set r b }

/-- `EA(b, k)` (R66): the data address b + k, reduced modulo 4096 or refused as `ADDR_OVERFLOW` says. -/
def effAddr (mode : AddrOverflow) (b : Addr) (k : Nat) : Option Addr :=
  if b.toNat + k ≤ 0xFFF then some (BitVec.ofNat 12 (b.toNat + k))
  else
    match mode with
    | .wrap => some (BitVec.ofNat 12 (b.toNat + k))
    | .fault => none

/-- `EA(b, k)` for each of the given offsets, or nothing if one of them is refused: a block's addresses are all checked
before its first access (R253). -/
def effAddrs (mode : AddrOverflow) (b : Addr) : List Nat → Option (List Addr)
  | [] => some []
  | k :: ks =>
    match effAddr mode b k, effAddrs mode b ks with
    | some a, some rest => some (a :: rest)
    | _, _ => none

/-- The addresses `EA(I, 0)` to `EA(I, n - 1)` (R61). -/
def State.block (s : State) (n : Nat) : Option (List Addr) := effAddrs s.cfg.addrOverflow s.index (List.range n)

/-- The step input of the coming step: what the host scheduled, or the free values (R42, R100, R212). -/
def State.input (s : State) : StepInput :=
  match s.inputs with
  | i :: _ => i
  | [] => { keys := Config.freeKeys s.steps, rnd := Config.freeRnd s.steps, ticks := Config.freeTicks s.steps }

/-- The key snapshot of the coming step (R119). -/
def State.keys (s : State) : BitVec 16 := s.input.keys

/-- The random byte of the coming step (R161). -/
def State.rnd (s : State) : Byte := s.input.rnd

/-- `min { k in 0..15 | keys[k] = 1 }`, or nothing when no key is pressed (R205). -/
def lowestKey (keys : BitVec 16) : Option RegIx := (List.finRange 16).find? fun k => keys.getLsbD k

/-- The address of the glyph for the low nibble of a byte: `FONT_BASE + 5 * (b & 0x0F)` (R227). -/
def glyphAddr (c : Config) (b : Byte) : Addr := BitVec.ofNat 12 (c.fontBase.toNat + 5 * (b &&& 0x0F).toNat)

/-- The hundreds, tens and ones digits of a byte (R63, R228). -/
def decimalDigits (b : Byte) : List Byte :=
  [BitVec.ofNat 8 (b.toNat / 100), BitVec.ofNat 8 (b.toNat / 10 % 10), BitVec.ofNat 8 (b.toNat % 10)]

/-- `V[0]` to `V[x]`, in order (R229). -/
def State.regsTo (s : State) (x : RegIx) : List Byte := s.v.toList.take (x.val + 1)

/-- `V[k] <- bs[k]` for every k the list has (R230). -/
def State.writeRegs (s : State) (bs : List Byte) : State :=
  { s with v := s.v.mapIdx fun k old => (bs[k]?).getD old }

end Sys2Proof.Machine
end

