-- ==== Sys2Proof/Machine/Ops.lean ====
section
/-! DEFINITION. The named operations of one step (spec/40_cycle.md, spec/60_exceptions.md): fetch, advance, skip, the
three ways a step ends, and reset. -/

namespace Sys2Proof.Machine

/-- The fetch address fa: PC, and 0x200 when PC is 0xFFE or more (R102). -/
def State.fetchAddr (s : State) : Word := if 0xFFE ≤ s.pc.toNat then 0x200 else s.pc

/-- The word at the fetch address, the byte at fa in bits 15..8 (R62, R103). -/
def State.fetchWord (s : State) : Word :=
  ofBytes (s.readByte (s.fetchAddr.setWidth 12)) (s.readByte ((s.fetchAddr + 1).setWidth 12))

/-- The post-fetch advance: `PC <- fa + 2` (R106). -/
def State.advance (s : State) : State := { s with pc := s.fetchAddr + 2 }

/-- `Skip()`: `PC <- PC + 2` on the advanced PC, not reduced (R107). -/
def State.skip (s : State) : State := { s with pc := s.pc + 2 }

/-- `PC <- zext_16(a)` (R131). -/
def State.jump (s : State) (a : Addr) : State := { s with pc := a.setWidth 16 }

/-- Push a return address: `STACK[SP] <- w; SP <- SP + 1` (R133). -/
def State.push (s : State) (w : Word) : State := { s with stack := s.stack.setIfInBounds s.sp.toNat w, sp := s.sp + 1 }

/-- Pop the top entry into PC: `SP <- SP - 1; PC <- STACK[SP]`; the entry keeps its value (R130). -/
def State.popPc (s : State) : State := { s with sp := s.sp - 1, pc := (s.stack[(s.sp - 1).toNat]?).getD 0 }

/-- Taking a fault (R252): every other part of the state is as it was when the step began; the latch records the cause,
the fetch address and the fetched word, which is 0 for RESERVED_FETCH (R250). -/
def State.takeFault (s : State) (c : FaultCause) : State :=
  { s with
    fault := true
    faultCause := c
    faultPc := s.fetchAddr
    faultOp := if c = .reservedFetch then 0 else s.fetchWord
    await := false
    fbChanged := false }

/-- The only way out of a fault (R258): the reset event (R280 to R282), which keeps the machine's parameters and the
host's schedule. -/
def State.rst (s : State) : State := { State.reset with cfg := s.cfg, inputs := s.inputs, steps := s.steps }

/-- How an instruction's rule ends (R108): `done`, `suspend` or `raise Fault(cause)`. -/
inductive Result where
  | done (s : State)
  | suspend
  | raise (c : FaultCause)
deriving DecidableEq, Repr

/-- A completed instruction: its writes stand, AWAIT is 0, FB_CHANGED says whether it touched the display (R109). -/
def State.complete (s : State) (touched : Bool) : State := { s with await := false, fbChanged := touched }

/-- A suspended step: PC stays at the instruction, AWAIT is 1, FB_CHANGED is 0 (R110, R206). -/
def State.suspend (s : State) : State := { s with pc := s.fetchAddr, await := true, fbChanged := false }

/-- The commit of a step that began in `s`: on `done` the writes stand and AWAIT becomes 0 (R109); on `suspend` nothing
but PC, AWAIT and FB_CHANGED changes (R110); on a fault the fault path runs (R111). -/
def commit (s : State) (touched : Bool) : Result → State
  | .done t => t.complete touched
  | .suspend => s.suspend
  | .raise c => s.takeFault c

/-- Execute a rule after the advance and commit it; FB_CHANGED becomes 0 (R106, R108, R109). -/
def runRule (s : State) (rule : State → Result) : Host.Outcome State Fault Refusal :=
  .next (commit s false (rule s.advance))

/-- The same for CLS and DRW, which touch the display: FB_CHANGED becomes 1 (R44, R109). -/
def runDisplayRule (s : State) (rule : State → Result) : Host.Outcome State Fault Refusal :=
  .next (commit s true (rule s.advance))

/-- Run the rest of a rule with a block's addresses, or raise MEM_RANGE before any access (R253). -/
def withBlock (s : State) (n : Nat) (rest : List Addr → Result) : Result :=
  match s.block n with
  | some addrs => rest addrs
  | none => .raise .memRange

/-- Write `V[x]` first and the flag into VF last (D5, R163). -/
def State.writeWithFlag (s : State) (x : RegIx) (result flag : Byte) : State := (s.writeV x result).writeV vf flag

/-- Skip when the condition holds (R107). -/
def State.skipIf (s : State) (c : Bool) : State := if c then s.skip else s

/-- One decrement that stops at 0 (R210). -/
def tickDown (t : Byte) : Byte := if t = 0 then t else t - 1

/-- The tick: each timer that is not zero is decremented, and nothing else changes (R210, R211). -/
def State.tick (s : State) : State := { s with dt := tickDown s.dt, st := tickDown s.st }

/-- A timer after n ticks. -/
def tickDownBy (n : Nat) (t : Byte) : Byte := BitVec.ofNat 8 (t.toNat - n)

/-- n ticks in a row (R212). -/
def State.ticks (s : State) (n : Nat) : State := { s with dt := tickDownBy n s.dt, st := tickDownBy n s.st }

/-- The end of a step request: the ticks the host delivers before the next step take effect, and the next step has a new
input (R118, R212). -/
def State.endStep (s : State) : State :=
  { s.ticks s.input.ticks with inputs := s.inputs.tail, steps := s.steps + 1 }

/-- The load port: `MEM[a] <- b`, unchecked (R121). -/
def State.loadByte (s : State) (a : Addr) (b : Byte) : State := s.writeByte a b

end Sys2Proof.Machine
end

