-- ==== Sys2Proof/Machine/Alu.lean ====
section
/-! DEFINITION. Register loads and the ALU (spec/42_alu.md). Every operand is read before any write, and VF is written
last (D5). All arithmetic wraps modulo 256 (R162). -/

namespace Sys2Proof.Machine

/-- `LD Vx, kk` (R150). -/
def execLdVxKk (x : RegIx) (kk : Byte) (s : State) : Host.Outcome State Fault Refusal :=
  runRule s fun t => .done (t.writeV x kk)

/-- `ADD Vx, kk`: modulo 256, no flag (R152). -/
def execAddVxKk (x : RegIx) (kk : Byte) (s : State) : Host.Outcome State Fault Refusal :=
  runRule s fun t => .done (t.writeV x (t.readV x + kk))

/-- `LD Vx, Vy` (R151). -/
def execLdVxVy (x y : RegIx) (s : State) : Host.Outcome State Fault Refusal :=
  runRule s fun t => .done (t.writeV x (t.readV y))

/-- `OR Vx, Vy`: no flag (R153). -/
def execOrVxVy (x y : RegIx) (s : State) : Host.Outcome State Fault Refusal :=
  runRule s fun t => .done (t.writeV x (t.readV x ||| t.readV y))

/-- `AND Vx, Vy`: no flag (R154). -/
def execAndVxVy (x y : RegIx) (s : State) : Host.Outcome State Fault Refusal :=
  runRule s fun t => .done (t.writeV x (t.readV x &&& t.readV y))

/-- `XOR Vx, Vy`: no flag (R155). -/
def execXorVxVy (x y : RegIx) (s : State) : Host.Outcome State Fault Refusal :=
  runRule s fun t => .done (t.writeV x (t.readV x ^^^ t.readV y))

/-- `ADD Vx, Vy`: VF is the carry (R156). -/
def execAddVxVy (x y : RegIx) (s : State) : Host.Outcome State Fault Refusal :=
  runRule s fun t =>
    .done (t.writeWithFlag x (t.readV x + t.readV y) (carryFlag (t.readV x) (t.readV y)))

/-- `SUB Vx, Vy`: VF is 1 iff V[x] > V[y] (R157). -/
def execSubVxVy (x y : RegIx) (s : State) : Host.Outcome State Fault Refusal :=
  runRule s fun t =>
    .done (t.writeWithFlag x (t.readV x - t.readV y) (greaterFlag (t.readV x) (t.readV y)))

/-- `SHR Vx`: VF is the old bit 0 (R158); the source is V[x] (D4). -/
def execShrVx (x : RegIx) (s : State) : Host.Outcome State Fault Refusal :=
  runRule s fun t => .done (t.writeWithFlag x (t.readV x >>> 1) (shiftOutLow (t.readV x)))

/-- `SUBN Vx, Vy`: VF is 1 iff V[y] > V[x] (R159). -/
def execSubnVxVy (x y : RegIx) (s : State) : Host.Outcome State Fault Refusal :=
  runRule s fun t =>
    .done (t.writeWithFlag x (t.readV y - t.readV x) (greaterFlag (t.readV y) (t.readV x)))

/-- `SHL Vx`: VF is the old bit 7 (R160); the source is V[x] (D4). -/
def execShlVx (x : RegIx) (s : State) : Host.Outcome State Fault Refusal :=
  runRule s fun t => .done (t.writeWithFlag x (t.readV x <<< 1) (shiftOutHigh (t.readV x)))

/-- `RND Vx, kk`: `V[x] <- rnd & kk` with the step's random byte (R161). -/
def execRndVxKk (x : RegIx) (kk : Byte) (s : State) : Host.Outcome State Fault Refusal :=
  runRule s fun t => .done (t.writeV x (t.rnd &&& kk))

end Sys2Proof.Machine
end

