-- ==== Sys2Proof/Machine/ControlFlow.lean ====
section
/-! DEFINITION. Control flow: RET, JP, JP V0, CALL and the four register skips (spec/41_control_flow.md). -/

namespace Sys2Proof.Machine

/-- `RET` (R130). -/
def execRet (s : State) : Host.Outcome State Fault Refusal :=
  runRule s fun t => if t.sp = 0 then .raise .stackUnderflow else .done t.popPc

/-- `JP nnn` (R131). -/
def execJp (nnn : Addr) (s : State) : Host.Outcome State Fault Refusal :=
  runRule s fun t => .done (t.jump nnn)

/-- `CALL nnn` (R133): the pushed value is the advanced PC (C7). -/
def execCall (nnn : Addr) (s : State) : Host.Outcome State Fault Refusal :=
  runRule s fun t => if t.sp = 16 then .raise .stackOverflow else .done ((t.push t.pc).jump nnn)

/-- `SE Vx, kk` (R135). -/
def execSeVxKk (x : RegIx) (kk : Byte) (s : State) : Host.Outcome State Fault Refusal :=
  runRule s fun t => .done (t.skipIf (t.readV x == kk))

/-- `SNE Vx, kk` (R136). -/
def execSneVxKk (x : RegIx) (kk : Byte) (s : State) : Host.Outcome State Fault Refusal :=
  runRule s fun t => .done (t.skipIf (t.readV x != kk))

/-- `SE Vx, Vy` (R137). -/
def execSeVxVy (x y : RegIx) (s : State) : Host.Outcome State Fault Refusal :=
  runRule s fun t => .done (t.skipIf (t.readV x == t.readV y))

/-- `SNE Vx, Vy` (R138). -/
def execSneVxVy (x y : RegIx) (s : State) : Host.Outcome State Fault Refusal :=
  runRule s fun t => .done (t.skipIf (t.readV x != t.readV y))

/-- `JP V0, nnn`: `PC <- (V[0] + nnn) mod 4096` (R132). -/
def execJpV0 (nnn : Addr) (s : State) : Host.Outcome State Fault Refusal :=
  runRule s fun t => .done (t.jump (BitVec.ofNat 12 ((t.readV 0).toNat + nnn.toNat)))

end Sys2Proof.Machine
end

