-- ==== Sys2Proof/Machine/Display.lean ====
section
/-! DEFINITION. The display instructions CLS and DRW: XOR blit and collision detector (spec/43_display.md). -/

namespace Sys2Proof.Machine

/-- The frame with every pixel off (R180). -/
def blankFrame : Frame := Vector.replicate 32 (Vector.replicate 64 false)

/-- `FB[r][c]` (R40); off outside the frame. -/
def pixelAt (fb : Frame) (r c : Nat) : Bool :=
  if h : r < 32 ∧ c < 64 then (fb[r]'h.1)[c]'h.2 else false

/-- `FB[r][c] <- FB[r][c] ^ 1`; nothing outside the frame. -/
def togglePixel (fb : Frame) (r c : Nat) : Frame :=
  if h : r < 32 ∧ c < 64 then fb.set r ((fb[r]'h.1).set c (!((fb[r]'h.1)[c]'h.2)) h.2) h.1 else fb

/-- A frame being drawn on, with the collision flag so far (R181). -/
structure Blit where
  fb : Frame
  hit : Bool
deriving DecidableEq, Repr

/-- One sprite bit at frame row `py`, column `px`: a bit outside the frame is discarded (R183); a set bit toggles its
pixel, and an on pixel turned off is a collision (R181, R188). -/
def plotBit (py px : Nat) (bit : Bool) (b : Blit) : Blit :=
  if py > 31 then b
  else if px > 63 then b
  else if bit then { fb := togglePixel b.fb py px, hit := b.hit || pixelAt b.fb py px }
  else b

/-- One sprite row at frame row `py`: the bits of columns `c` on, bit 7 - c of the byte at column `ox + c` (R184). -/
def plotRow (py ox : Nat) (row : Byte) : List Nat → Blit → Blit
  | [], b => b
  | c :: cs, b => plotRow py ox row cs (plotBit py (ox + c) (row.getLsbD (7 - c)) b)

/-- The sprite's rows from frame row `py` down (R181, R184). -/
def plotRows (ox : Nat) : Nat → List Byte → Blit → Blit
  | _, [], b => b
  | py, row :: rows, b => plotRows ox (py + 1) rows (plotRow py ox row (List.range 8) b)

/-- Draw a sprite with its origin at `(vx mod 64, vy mod 32)` (R181, R182); the collision flag starts at 0. -/
def drawSprite (fb : Frame) (vx vy : Byte) (rows : List Byte) : Blit :=
  plotRows (vx.toNat % 64) (vy.toNat % 32) rows { fb := fb, hit := false }

/-- The drawn frame stands and VF becomes the collision flag, last (R181, R186). -/
def State.withBlit (s : State) (b : Blit) : State := { s with fb := b.fb }.writeV vf (flagByte b.hit)

/-- `CLS` (R180). -/
def execCls (s : State) : Host.Outcome State Fault Refusal :=
  runDisplayRule s fun t => .done { t with fb := blankFrame }

/-- `DRW Vx, Vy, n` (R181): all n bytes are read before any pixel changes (R185), the coordinates before VF is written
(R186), and VF ends as the collision flag. -/
def execDrw (x y : RegIx) (n : Nat) (s : State) : Host.Outcome State Fault Refusal :=
  runDisplayRule s fun t => withBlock t n fun addrs =>
    .done (t.withBlit (drawSprite t.fb (t.readV x) (t.readV y) (addrs.map t.readByte)))

end Sys2Proof.Machine
end

