-- ==== Sys2Proof/Machine/IndexMemory.lean ====
section
/-! DEFINITION. The index register and memory transfers (spec/45_index_memory.md). -/

namespace Sys2Proof.Machine

/-- `LD I, nnn` (R225). -/
def execLdINnn (nnn : Addr) (s : State) : Host.Outcome State Fault Refusal :=
  runRule s fun t => .done { t with index := nnn }

/-- `ADD I, Vx`: modulo 4096, VF not written (R226). -/
def execAddIVx (x : RegIx) (s : State) : Host.Outcome State Fault Refusal :=
  runRule s fun t => .done { t with index := BitVec.ofNat 12 (t.index.toNat + (t.readV x).toNat) }

/-- `LD F, Vx` (R227). -/
def execLdFVx (x : RegIx) (s : State) : Host.Outcome State Fault Refusal :=
  runRule s fun t => .done { t with index := glyphAddr t.cfg (t.readV x) }

/-- `LD B, Vx` (R228). -/
def execLdBVx (x : RegIx) (s : State) : Host.Outcome State Fault Refusal :=
  runRule s fun t => withBlock t 3 fun addrs => .done (t.writeBytes (addrs.zip (decimalDigits (t.readV x))))

/-- `LD [I], Vx` (R229). -/
def execLdMemVx (x : RegIx) (s : State) : Host.Outcome State Fault Refusal :=
  runRule s fun t => withBlock t (x.val + 1) fun addrs => .done (t.writeBytes (addrs.zip (t.regsTo x)))

/-- `LD Vx, [I]` (R230). -/
def execLdVxMem (x : RegIx) (s : State) : Host.Outcome State Fault Refusal :=
  runRule s fun t => withBlock t (x.val + 1) fun addrs => .done (t.writeRegs (addrs.map t.readByte))

end Sys2Proof.Machine
end

