-- ==== Sys2Proof/Machine/KeysTimers.lean ====
section
/-! DEFINITION. Key tests, timer transfers and the blocking key load (spec/44_input_timers.md). -/

namespace Sys2Proof.Machine

/-- `SKP Vx` (R200): KEY_RANGE when V[x] is above 15, else skip when key V[x] is pressed. -/
def execSkpVx (x : RegIx) (s : State) : Host.Outcome State Fault Refusal :=
  runRule s fun t =>
    if (t.readV x).toNat > 15 then .raise .keyRange else .done (t.skipIf (t.keys.getLsbD (t.readV x).toNat))

/-- `SKNP Vx` (R201): KEY_RANGE when V[x] is above 15, else skip when key V[x] is not pressed. -/
def execSknpVx (x : RegIx) (s : State) : Host.Outcome State Fault Refusal :=
  runRule s fun t =>
    if (t.readV x).toNat > 15 then .raise .keyRange else .done (t.skipIf (!t.keys.getLsbD (t.readV x).toNat))

/-- `LD Vx, DT` (R202). -/
def execLdVxDt (x : RegIx) (s : State) : Host.Outcome State Fault Refusal :=
  runRule s fun t => .done (t.writeV x t.dt)

/-- `LD DT, Vx` (R203). -/
def execLdDtVx (x : RegIx) (s : State) : Host.Outcome State Fault Refusal :=
  runRule s fun t => .done { t with dt := t.readV x }

/-- `LD ST, Vx` (R204). -/
def execLdStVx (x : RegIx) (s : State) : Host.Outcome State Fault Refusal :=
  runRule s fun t => .done { t with st := t.readV x }

/-- `LD Vx, K` (R205): suspend while no key is pressed (R206), else load the lowest pressed key; level-triggered (R207). -/
def execLdVxK (x : RegIx) (s : State) : Host.Outcome State Fault Refusal :=
  runRule s fun t =>
    match lowestKey t.keys with
    | none => .suspend
    | some k => .done (t.writeV x (BitVec.ofNat 8 k.val))

end Sys2Proof.Machine
end

