-- ==== Sys2Proof/Machine/Cycle.lean ====
section
/-! DEFINITION. One step of the core (R112), a step request with the host's input around it (R118, R212), and the
placing of an instruction where the next step fetches. -/

namespace Sys2Proof.Machine

/-- The whole step of R112: a faulted core changes nothing (R101); a fetch address below 0x200 raises RESERVED_FETCH
(R104); a word that is no instruction raises INVALID_OPCODE (R105); else the decoded instruction runs. -/
def cycle (s : State) : Host.Outcome State Fault Refusal :=
  if s.fault then .next s
  else if s.fetchAddr.toNat < 0x200 then .next (s.takeFault .reservedFetch)
  else
    match decode s.fetchWord with
    | .error _ => .next (s.takeFault .invalidOpcode)
    | .ok i => exec i s

/-- Carry an outcome's next state on through a function. -/
def thenNext (o : Host.Outcome State Fault Refusal) (f : State → State) : Host.Outcome State Fault Refusal :=
  match o with
  | .next t => .next (f t)
  | .fault r => .fault r
  | .refused r => .refused r

/-- One step request: the step, then the ticks the host delivers before the next step; the input is used up (R118). -/
def stepRequest (s : State) : Host.Outcome State Fault Refusal := thenNext (cycle s) State.endStep

/-- Store a word at the fetch address, the high byte first (R62). A state whose next step fetches nothing (a latched
fault, R101, or a PC below 0x200, R104) is first made one that fetches at 0x200 with the latch clear. -/
def State.placeWord (s : State) (op : Word) : State :=
  let t : State :=
    { s with
      pc := if s.fetchAddr.toNat < 0x200 then 0x200 else s.pc
      fault := false
      faultCause := if s.fault then .none else s.faultCause
      faultPc := if s.fault then 0 else s.faultPc
      faultOp := if s.fault then 0 else s.faultOp }
  (t.writeByte (t.fetchAddr.setWidth 12) (highByte op)).writeByte ((t.fetchAddr + 1).setWidth 12)
    (lowByte op)

end Sys2Proof.Machine
end

