-- ==== Sys2Proof/Machine/Step.lean ====
section
/-! DEFINITION. The machine's step and the placing of a table word before it. -/

namespace Sys2Proof.Machine

/-- One step of the machine: one step request of the host (R100, R112, R118). -/
def step (s : State) : Host.Outcome State Fault Refusal := stepRequest s

/-- The state with a table word stored where `step` fetches its next instruction. -/
def State.withFetchWord (s : State) (nbits w : Nat) : State := s.placeWord (tableWord nbits w)

end Sys2Proof.Machine
end

