-- ==== Sys2Proof/Machine/Interface.lean ====
section
/-! DEFINITION. The block's ports (R117): whole transactions (R118), the outputs (R113 to R116), the control states (R122)
and the boot load (R121, R284). -/

namespace Sys2Proof.Machine

/-- The input ports of one transaction (R117). -/
structure Transaction where
  rst : Bool
  stepReq : Bool
  keys : BitVec 16
  rnd : Byte
  tick : Bool
  ldWe : Bool
  ldAddr : Addr
  ldData : Byte
deriving DecidableEq, Repr

/-- The state after the load port (R121). -/
def Transaction.afterLoad (t : Transaction) (s : State) : State := if t.ldWe then s.loadByte t.ldAddr t.ldData else s

/-- The input of a transaction's step: its keys, its random byte, and its own tick (R118). -/
def Transaction.stepInput (t : Transaction) : StepInput := { keys := t.keys, rnd := t.rnd, ticks := if t.tick then 1 else 0 }

/-- One atomic transaction: `rst` alone if asserted, else the load write, then the step, then the tick (R118). -/
def transact (t : Transaction) (s : State) : Host.Outcome State Fault Refusal :=
  if t.rst then .next s.rst
  else if t.stepReq then step { t.afterLoad s with inputs := t.stepInput :: s.inputs }
  else .next (if t.tick then (t.afterLoad s).tick else t.afterLoad s)

/-- The three outcomes of a step (R100). -/
inductive StepOutcome where
  | executed
  | awaitingKey
  | fault (c : FaultCause)
deriving DecidableEq, Repr

/-- The outcome of the last step, read from the fault latch and AWAIT (R101, R109 to R111). -/
def State.outcome (s : State) : StepOutcome :=
  if s.fault then .fault s.faultCause else if s.await then .awaitingKey else .executed

/-- The `outcome` port: 0 EXECUTED, 1 AWAITING_KEY, 2 FAULT; 3 is never produced (R117). -/
def State.outcomeCode (s : State) : BitVec 2 :=
  match s.outcome with
  | .executed => 0
  | .awaitingKey => 1
  | .fault _ => 2

/-- The `fault_cause` port: the 3-bit code of R250. -/
def FaultCause.code : FaultCause → BitVec 3
  | .none => 0
  | .invalidOpcode => 1
  | .stackOverflow => 2
  | .stackUnderflow => 3
  | .memRange => 4
  | .keyRange => 5
  | .reservedFetch => 6

/-- The engine's control states (R122). -/
inductive ControlState where
  | ready
  | awaitKey
  | faulted
deriving DecidableEq, Repr

/-- The control state: FAULTED when FAULT = 1, AWAIT_KEY when only AWAIT = 1, else READY (R122). -/
def State.control (s : State) : ControlState := if s.fault then .faulted else if s.await then .awaitKey else .ready

/-- The `buzzer` port: `ST != 0` (R115). -/
def State.buzzer (s : State) : Bool := decide (s.st ≠ 0)

/-- The pixels of the frame in row-major order (R114). -/
def framePixels (fb : Frame) : List Bool := fb.toList.flatMap fun row => row.toList

/-- The `fb` port: bit `r * 64 + c` is `FB[r][c]` (R114). -/
def State.fbPort (s : State) : BitVec 2048 :=
  BitVec.ofNat 2048 ((framePixels s.fb).foldr (fun p acc => 2 * acc + (if p then 1 else 0)) 0)

/-- The frame update of the last step: the frame when the step completed CLS or DRW, else "unchanged" (R113). -/
def State.frameUpdate (s : State) : Option (BitVec 2048) :=
  if s.outcome = .executed ∧ s.fbChanged = true then some s.fbPort else none

/-- `desired_period`: the reciprocal of the configured frequency, in seconds (R116). The spec states no range for `CYCLE_HZ`
(R19) and no period for the value 0, which has no reciprocal: there the period is the free value `Config.freePeriod`
(DESIGN CHOICE, log entry 19). -/
def desiredPeriod (c : Config) : ℚ := if c.cycleHz = 0 then Config.freePeriod else 1 / (c.cycleHz : ℚ)

/-- Load bytes through the load port at rising addresses from `a` on (R121, R284). -/
def State.loadFrom (s : State) (a : Addr) : List Byte → State
  | [] => s
  | b :: rest => (s.loadByte a b).loadFrom (a + 1) rest

/-- Boot step (2): the program image, verbatim, from 0x200 on (R121, R284). -/
def State.loadImage (s : State) (image : List Byte) : State := s.loadFrom 0x200 image

end Sys2Proof.Machine
end

