-- ==== Sys2Proof/Safety.lean ====
section
/-! DEFINITION. The terms claims use: the parts of the state and the frames (what a run of an instruction leaves alone),
the invariant of the machine, and the faults a step raises as spec/60_exceptions.md lists them. -/

namespace Sys2Proof.Machine

/-- The parts of the state a claim can name one by one: registers, stack entries and memory bytes singly. -/
inductive Part where
  | reg (r : RegIx)
  | pc
  | index
  | sp
  | entry (j : Fin 16)
  | dt
  | st
  | fb
  | byte (a : Addr)
  | await
  | fbChanged
  | latch
  | cfg
  | host
deriving DecidableEq, Repr

/-- The part reads in `t` as in `s`. -/
def Part.Same (s t : State) : Part → Prop
  | .reg r => t.readV r = s.readV r
  | .pc => t.pc = s.pc
  | .index => t.index = s.index
  | .sp => t.sp = s.sp
  | .entry j => t.stack[j] = s.stack[j]
  | .dt => t.dt = s.dt
  | .st => t.st = s.st
  | .fb => t.fb = s.fb
  | .byte a => t.readByte a = s.readByte a
  | .await => t.await = s.await
  | .fbChanged => t.fbChanged = s.fbChanged
  | .latch => t.fault = s.fault ∧ t.faultCause = s.faultCause ∧ t.faultPc = s.faultPc ∧ t.faultOp = s.faultOp
  | .cfg => t.cfg = s.cfg
  | .host => t.inputs = s.inputs ∧ t.steps = s.steps

/-- Every part but the listed ones is unchanged from `s` to `t`. -/
def OnlyChanges (may : List Part) (s t : State) : Prop := ∀ p, p ∉ may → p.Same s t

/-- `i` completes from `s` in a next state `t` with `post t`: AWAIT is 0, FB_CHANGED is `touched` (R109), and besides these
two every part but the listed ones is unchanged. -/
def Completes (i : Instr) (s : State) (touched : Bool) (may : List Part) (post : State → Prop) : Prop :=
  ∃ t, exec i s = .next t ∧ t.await = false ∧ t.fbChanged = touched ∧ OnlyChanges (.await :: .fbChanged :: may) s t ∧ post t

/-- `i` completes without touching the display and without a jump: PC is fa + 2 (R106). -/
def CompletesInLine (i : Instr) (s : State) (may : List Part) (post : State → Prop) : Prop :=
  Completes i s false (.pc :: may) fun t => t.pc = s.fetchAddr + 2 ∧ post t

/-- The encoding line of an instruction's rule: every word that has the row's `fixed` bits under its `mask` decodes to the
instruction, with the operands at the fields of R26 (R84). -/
def EncodedAs (fixed mask : Word) (of : Word → Instr) : Prop := ∀ op : Word, op &&& mask = fixed → decode op = .ok (of op)

/-- The fault path ran with cause `c` (R252): the latch holds the cause, the fetch address and the given word, AWAIT and
FB_CHANGED are 0, and every other part is as it was. -/
def FaultLatched (c : FaultCause) (op : Word) (s t : State) : Prop :=
  t.fault = true ∧ t.faultCause = c ∧ t.faultPc = s.fetchAddr ∧ t.faultOp = op ∧ t.await = false ∧ t.fbChanged = false
    ∧ OnlyChanges [.latch, .await, .fbChanged] s t

/-- `i` run from `s` raises the fault `c` as R252 says, recording the fetched word. -/
def Raises (i : Instr) (s : State) (c : FaultCause) : Prop :=
  ∃ t, exec i s = .next t ∧ FaultLatched c s.fetchWord s t

/-- A block of n bytes from I on is accessible: every address passes the check of R66 and R253. -/
abbrev State.BlockFits (s : State) (n : Nat) : Prop := s.cfg.addrOverflow = .wrap ∨ s.index.toNat + n ≤ 0x1000

/-- The data addresses of a block: `EA(I, 0)` to `EA(I, n - 1)`, as the memory instructions compute them. -/
def State.span (s : State) (n : Nat) : List Addr := (List.range n).filterMap (effAddr s.cfg.addrOverflow s.index)

/-- The fault of an instruction's own check (R257): which instruction raises what, and when (R250). -/
def instrFault (i : Instr) (s : State) : Option FaultCause :=
  match i with
  | .call _ => if s.sp = 16 then some .stackOverflow else none
  | .ret => if s.sp = 0 then some .stackUnderflow else none
  | .skpVx x | .sknpVx x => if (s.readV x).toNat > 0x0F then some .keyRange else none
  | .drw _ _ n => if s.BlockFits n then none else some .memRange
  | .ldBVx _ => if s.BlockFits 3 then none else some .memRange
  | .ldMemVx x | .ldVxMem x => if s.BlockFits (x.val + 1) then none else some .memRange
  | .cls | .jp _ | .seVxKk _ _ | .sneVxKk _ _ | .seVxVy _ _ | .ldVxKk _ _ | .addVxKk _ _ | .ldVxVy _ _ | .orVxVy _ _
  | .andVxVy _ _ | .xorVxVy _ _ | .addVxVy _ _ | .subVxVy _ _ | .shrVx _ | .subnVxVy _ _ | .shlVx _ | .sneVxVy _ _
  | .ldINnn _ | .jpV0 _ | .rndVxKk _ _ | .ldVxDt _ | .ldVxK _ | .ldDtVx _ | .ldStVx _ | .addIVx _ | .ldFVx _ => none

/-- The fault a step raises, in the order of checks of R257: the fetch, the decode, the instruction. -/
def stepFault (s : State) : Option FaultCause :=
  if s.fetchAddr.toNat < 0x200 then some .reservedFetch
  else
    match decode s.fetchWord with
    | .error _ => some .invalidOpcode
    | .ok i => instrFault i s

/-- The step suspends: it runs `LD Vx, K` and no key is pressed (R205, R206). -/
def Suspends (s : State) : Prop := (∃ x, decode s.fetchWord = .ok (.ldVxK x)) ∧ s.keys = 0

/-- The set bits of a sprite as pixels: the bit of an n-row sprite at I, with its origin at row `oy` and column `ox`, that
falls on row `r` and column `c` (R181, R184): row `r - oy` of the sprite is the byte at `EA(I, r - oy)`, bit 7 is leftmost. -/
def spriteBit (s : State) (ox oy n r c : Nat) : Bool :=
  decide (oy ≤ r ∧ r < oy + n ∧ ox ≤ c ∧ c < ox + 8)
    && (s.readByte (BitVec.ofNat 12 (s.index.toNat + (r - oy)))).getLsbD (7 - (c - ox))

/-- The invariant of the machine: what every step keeps, whatever the host supplies. -/
structure State.Inv (s : State) : Prop where
  /-- the parameters are legal (R17) -/
  parameters : s.cfg.Legal
  /-- memory is in canonical form -/
  memory : Memory.wf s.cfg s.mem = true
  /-- PC is in 0x000..0x1001 (R34) -/
  pcRange : s.pc.toNat ≤ 0x1001
  /-- SP never leaves 0..16 (R37) -/
  spRange : s.sp.toNat ≤ 16
  /-- a pushed value is at most 0xFFF (R34, R130) -/
  entryRange : ∀ j : Fin 16, (s.stack[j]).toNat ≤ 0xFFF
  /-- with FAULT = 0 the rest of the latch is 0 (R45) -/
  latchClear : s.fault = false → s.faultCause = .none ∧ s.faultPc = 0 ∧ s.faultOp = 0
  /-- with FAULT = 1 a cause and a fetch address are recorded, and AWAIT and FB_CHANGED are 0 (R45, R252) -/
  latchSet : s.fault = true →
    s.faultCause ≠ .none ∧ s.faultPc.toNat ≤ 0xFFD ∧ s.await = false ∧ s.fbChanged = false
  /-- RESERVED_FETCH is recorded exactly with a fetch address below 0x200, and with no word (R250, R255) -/
  latchReserved : s.fault = true →
    (s.faultCause = .reservedFetch ↔ s.faultPc.toNat < 0x200) ∧ (s.faultCause = .reservedFetch → s.faultOp = 0)
  /-- while AWAIT = 1 the core stands at a key-wait instruction it may fetch, and FB_CHANGED is 0 (R43, R110, R208) -/
  waiting : s.await = true →
    s.fbChanged = false ∧ 0x200 ≤ s.pc.toNat ∧ s.pc.toNat < 0xFFE ∧ ∃ x, decode s.fetchWord = .ok (.ldVxK x)

/-- The values of R49: all zero but PC = 0x200 and the font at FONT_BASE. -/
structure ResetValues (s : State) : Prop where
  regs : ∀ r : RegIx, s.readV r = 0
  pc : s.pc = 0x200
  index : s.index = 0
  sp : s.sp = 0
  stack : ∀ j : Fin 16, s.stack[j] = 0
  timers : s.dt = 0 ∧ s.st = 0
  frame : ∀ r c, r < 32 → c < 64 → pixelAt s.fb r c = false
  font : ∀ k : Fin 80, s.readByte (BitVec.ofNat 12 (s.cfg.fontBase.toNat + k.val)) = s.cfg.fontData[k]
  zeros : ∀ a : Addr, a.toNat < s.cfg.fontBase.toNat ∨ s.cfg.fontBase.toNat + 80 ≤ a.toNat → s.readByte a = 0
  status : s.await = false ∧ s.fbChanged = false
  latch : s.fault = false ∧ s.faultCause = .none ∧ s.faultPc = 0 ∧ s.faultOp = 0

/-- Two states that agree in everything but stack entries at or above SP (R38). -/
structure State.SameButStale (s t : State) : Prop where
  rest : { s with stack := t.stack } = t
  live : ∀ j : Fin 16, j.val < s.sp.toNat → s.stack[j] = t.stack[j]

end Sys2Proof.Machine

namespace Sys2Proof

/-- A CLS or DRW: the instructions that touch the display (R44). -/
def Instr.touchesDisplay : Instr → Bool
  | .cls | .drw _ _ _ => true
  | .ret | .jp _ | .call _ | .seVxKk _ _ | .sneVxKk _ _ | .seVxVy _ _ | .ldVxKk _ _ | .addVxKk _ _ | .ldVxVy _ _
  | .orVxVy _ _ | .andVxVy _ _ | .xorVxVy _ _ | .addVxVy _ _ | .subVxVy _ _ | .shrVx _ | .subnVxVy _ _ | .shlVx _
  | .sneVxVy _ _ | .ldINnn _ | .jpV0 _ | .rndVxKk _ _ | .skpVx _ | .sknpVx _ | .ldVxDt _ | .ldVxK _ | .ldDtVx _
  | .ldStVx _ | .addIVx _ | .ldFVx _ | .ldBVx _ | .ldMemVx _ | .ldVxMem _ => false

/-- The operand fields at their places in the word (R92): `x << 8`, `y << 4`, `n`, `kk` and `nnn` as the format has them. -/
def Instr.operandBits : Instr → Word
  | .cls | .ret => 0
  | .jp nnn | .call nnn | .ldINnn nnn | .jpV0 nnn => BitVec.ofNat 16 nnn.toNat
  | .seVxKk x kk | .sneVxKk x kk | .ldVxKk x kk | .addVxKk x kk | .rndVxKk x kk =>
    (BitVec.ofNat 16 x.val <<< 8) ||| BitVec.ofNat 16 kk.toNat
  | .seVxVy x y | .sneVxVy x y | .ldVxVy x y | .orVxVy x y | .andVxVy x y | .xorVxVy x y | .addVxVy x y | .subVxVy x y
  | .subnVxVy x y => (BitVec.ofNat 16 x.val <<< 8) ||| (BitVec.ofNat 16 y.val <<< 4)
  | .drw x y n => (BitVec.ofNat 16 x.val <<< 8) ||| (BitVec.ofNat 16 y.val <<< 4) ||| BitVec.ofNat 16 n
  | .shrVx x | .shlVx x | .skpVx x | .sknpVx x | .ldVxDt x | .ldVxK x | .ldDtVx x | .ldStVx x | .addIVx x | .ldFVx x
  | .ldBVx x | .ldMemVx x | .ldVxMem x => BitVec.ofNat 16 x.val <<< 8

end Sys2Proof
end

