-- ==== Sys2Proof/Certificates/Slice0/Obligations.lean ====
section
/-! DEFINITION. The statements for the provers, from the numbered rules of spec/. -/

open Sys2Proof Sys2Proof.Machine

/-! ## Encoding -/

/-- Decoding the word of a well-formed instruction gives the instruction, with every operand (R84, R92). -/
def Obligations.DecodeOfEncodeIsTheInstruction : Prop :=
  ∀ i : Instr, i.wellFormed = true → decode (encode i) = .ok i

/-- A word that decodes is the word of what it decodes to, but for the ignored nibble y of 8xy6 and 8xyE (R86, R92), and
what it decodes to is well formed. -/
def Obligations.EncodeOfDecodeIsTheWord : Prop :=
  ∀ (op : Word) (i : Instr), decode op = .ok i →
    i.wellFormed = true
      ∧ encode i = (if op &&& 0xF00F = 0x8006 ∨ op &&& 0xF00F = 0x800E then op &&& 0xFF0F else op)

/-- R84: a word decodes to an instruction of the row whose fixed bits it matches, and a word that matches no row decodes to
nothing. That the 34 patterns are pairwise disjoint is R84's sentence "The 34 patterns are pairwise disjoint", which the spec
marks as its own inference. -/
def Obligations.DecodeSelectsTheMatchingRow : Prop :=
  tableRows.length = 34
    ∧ tableRows.Pairwise (fun r r' => ∀ op : Word, ¬ (op &&& r.2 = r.1 ∧ op &&& r'.2 = r'.1))
    ∧ ∀ op : Word,
        (∀ row ∈ tableRows, (op &&& row.2 = row.1 ↔ ∃ i, decode op = .ok i ∧ tableRow i = row))
        ∧ (decode op = .error (.invalidOpcode op) ↔ ∀ row ∈ tableRows, op &&& row.2 ≠ row.1)

/-- The invalid words are those of the six groups of R87, a table that rests on the spec's general-knowledge encodings (log
entry 4). -/
def Obligations.InvalidWordsAreThoseOfTheSixGroups : Prop :=
  ∀ op : Word, decode op = .error (.invalidOpcode op) ↔
    (Decode.n1 op = 0x0 ∧ op ≠ 0x00E0 ∧ op ≠ 0x00EE)
    ∨ (Decode.n1 op = 0x5 ∧ Decode.n op ≠ 0)
    ∨ (Decode.n1 op = 0x8 ∧ Decode.n op ∈ [0x8, 0x9, 0xA, 0xB, 0xC, 0xD, 0xF])
    ∨ (Decode.n1 op = 0x9 ∧ Decode.n op ≠ 0)
    ∨ (Decode.n1 op = 0xE ∧ Decode.kk op ∉ [0x9E, 0xA1])
    ∨ (Decode.n1 op = 0xF ∧ Decode.kk op ∉ [0x07, 0x0A, 0x15, 0x18, 0x1E, 0x29, 0x33, 0x55, 0x65])

/-- R92: the word is the row's match with the operand fields at their places, y of SHR and SHL 0. -/
def Obligations.EncodeIsMatchWithOperands : Prop :=
  ∀ i : Instr, i.wellFormed = true → encode i = (tableRow i).1 ||| i.operandBits

/-- Words written out in the spec decode as the spec says (the scenario of R62 and the vectors K1 to K13). -/
def Obligations.SpecWordsDecode : Prop :=
  decode 0x600A = .ok (.ldVxKk 0x0 0x0A) ∧ decode 0x7005 = .ok (.addVxKk 0x0 0x05)
    ∧ decode 0x00E0 = .ok .cls ∧ decode 0x00EE = .ok .ret ∧ decode 0x2210 = .ok (.call 0x210)
    ∧ decode 0x8A5E = .ok (.shlVx 0xA) ∧ decode 0x9120 = .ok (.sneVxVy 0x1 0x2)
    ∧ decode 0xD015 = .ok (.drw 0x0 0x1 5) ∧ decode 0xE29E = .ok (.skpVx 0x2) ∧ decode 0xF165 = .ok (.ldVxMem 0x1)
    ∧ (∀ op ∈ ([0x0000, 0x00E1, 0x0123, 0x5121, 0x8AB8, 0xE09F, 0xF0FF, 0xFFFF] : List Word),
        decode op = .error (.invalidOpcode op))
    ∧ decodeBytes [0x60, 0x0A, 0x70, 0x05] = .ok (.ldVxKk 0x0 0x0A, [0x70, 0x05])

/-! ## Fetch and step -/

/-- R102 and R103: where a step fetches, and the big-endian word it fetches there. -/
def Obligations.FetchAddressAndWord : Prop :=
  ∀ s : State,
    (0xFFE ≤ s.pc.toNat → s.fetchAddr = 0x200) ∧ (s.pc.toNat < 0xFFE → s.fetchAddr = s.pc)
      ∧ s.fetchAddr.toNat + 1 < 4096
      ∧ s.fetchWord.toNat = 256 * (s.readByte (BitVec.ofNat 12 s.fetchAddr.toNat)).toNat
          + (s.readByte (BitVec.ofNat 12 (s.fetchAddr.toNat + 1))).toNat

/-- A step at a fetchable address runs the decoded instruction, and around it does this only: the ticks of its input take
effect after it, its input is used up, and the counter advances (R112, R118; the input fields are the model's, log entries
2 and 3). So it is for every step, one that faults included. -/
def Obligations.StepRunsTheDecodedInstruction : Prop :=
  (∀ (s : State) (i : Instr), s.fault = false → 0x200 ≤ s.fetchAddr.toNat → decode s.fetchWord = .ok i →
    step s = thenNext (exec i s) State.endStep)
  ∧ (∀ s t : State, cycle s = .next t → step s = .next t.endStep)
  ∧ ∀ t : State, OnlyChanges [.dt, .st, .host] t t.endStep ∧ t.endStep.dt.toNat = t.dt.toNat - t.input.ticks
      ∧ t.endStep.st.toNat = t.st.toNat - t.input.ticks ∧ t.endStep.inputs = t.inputs.tail ∧ t.endStep.steps = t.steps + 1

/-- R101: a step of a faulted core changes no state and ends in the same fault again; only reset clears it. -/
def Obligations.FaultedCoreStaysAsItIs : Prop :=
  ∀ s : State, s.fault = true →
    cycle s = .next s ∧ s.outcome = .fault s.faultCause ∧ s.rst.fault = false

/-- R255: a fetch address below 0x200 raises RESERVED_FETCH, which records no word. -/
def Obligations.ReservedFetchFaults : Prop :=
  ∀ s : State, s.fault = false → s.fetchAddr.toNat < 0x200 →
    ∃ t, cycle s = .next t ∧ FaultLatched .reservedFetch 0 s t

/-- R105: the step runs the instruction of the row that matches, and raises INVALID_OPCODE when none does. -/
def Obligations.StepDecodesByTheTable : Prop :=
  ∀ s : State, s.fault = false → 0x200 ≤ s.fetchAddr.toNat →
    (∀ row ∈ tableRows, s.fetchWord &&& row.2 = row.1 → ∃ i, tableRow i = row ∧ decode s.fetchWord = .ok i ∧ cycle s = exec i s)
    ∧ ((∀ row ∈ tableRows, s.fetchWord &&& row.2 ≠ row.1) →
        ∃ t, cycle s = .next t ∧ FaultLatched .invalidOpcode s.fetchWord s t)

/-- Every step of a core that is not faulted ends in exactly the outcome the rules give: the fault of R257's order of
checks, else a suspension, else a completed instruction (R100, R109, R110, R250, R257). -/
def Obligations.StepOutcomeIsDetermined : Prop :=
  ∀ s : State, s.fault = false → ∃ t, cycle s = .next t
    ∧ (∀ c, stepFault s = some c → t.outcome = .fault c)
    ∧ (stepFault s = none → Suspends s → t.outcome = .awaitingKey)
    ∧ (stepFault s = none → ¬ Suspends s → t.outcome = .executed)

/-- R252: whatever step raises a fault, the latch records it and every other part is as it was when the step began. -/
def Obligations.FaultsArePrecise : Prop :=
  ∀ s t : State, s.fault = false → cycle s = .next t → t.fault = true →
    FaultLatched t.faultCause (if t.faultCause = .reservedFetch then 0 else s.fetchWord) s t
      ∧ t.faultCause ≠ .none ∧ t.outcome = .fault t.faultCause ∧ t.outcomeCode = 2

/-- R43 and R44: AWAIT is 1 exactly after a step that suspended, FB_CHANGED exactly after one that completed CLS or DRW;
both are 0 after reset. The premise is the part of the invariant that rules out faulted states with a status bit set. -/
def Obligations.StatusBitsAfterAStep : Prop :=
  (∀ s t : State, (s.fault = true → s.await = false ∧ s.fbChanged = false) → cycle s = .next t →
    (t.await = true ↔ s.fault = false ∧ stepFault s = none ∧ Suspends s)
    ∧ (t.fbChanged = true ↔
        s.fault = false ∧ stepFault s = none ∧ ∃ i, decode s.fetchWord = .ok i ∧ i.touchesDisplay = true))
  ∧ ∀ s : State, s.rst.await = false ∧ s.rst.fbChanged = false

/-! ## Invariants and whole-machine rules -/

/-- Every step keeps the invariant, whatever the host supplies. -/
def Obligations.EveryStepKeepsInv : Prop := ∀ s t : State, s.Inv → step s = .next t → t.Inv

/-- The state after reset meets the invariant. -/
def Obligations.ResetMeetsInv : Prop := State.reset.Inv

/-- R49: the values after reset, with the spec's default parameters. -/
def Obligations.ResetStateHasResetValues : Prop :=
  ResetValues State.reset ∧ State.reset.cfg.fontBase = 0x050 ∧ State.reset.cfg.addrOverflow = .wrap
    ∧ State.reset.cfg.cycleHz = 700 ∧ State.reset.control = .ready ∧ State.reset.outcomeCode = 0

/-- R280 and R282: the reset event gives these values from any state and leaves the core READY. -/
def Obligations.RstGivesResetValues : Prop :=
  ∀ s : State, s.cfg.Legal → ResetValues s.rst ∧ s.rst.cfg = s.cfg ∧ s.rst.control = .ready ∧ s.rst.outcomeCode = 0

/-- With no program loaded, the first step faults INVALID_OPCODE at 0x200: R285, which the spec marks as its own inference
from R280, R105 and R88. -/
def Obligations.FirstStepWithNoProgramFaults : Prop :=
  ∃ t, step State.reset = .next t ∧ State.reset.fetchWord = 0x0000
    ∧ t.fault = true ∧ t.faultCause = .invalidOpcode ∧ t.faultPc = 0x200 ∧ t.faultOp = 0x0000

/-- Which instructions write which part (R35, R36, R39, R61): no other instruction changes it. -/
def Obligations.EachPartHasItsWriters : Prop :=
  ∀ (i : Instr) (s t : State), exec i s = .next t →
    (t.index ≠ s.index → (∃ a, i = .ldINnn a) ∨ (∃ x, i = .addIVx x) ∨ ∃ x, i = .ldFVx x)
    ∧ (t.sp ≠ s.sp ∨ t.stack ≠ s.stack → i = .ret ∨ ∃ a, i = .call a)
    ∧ (t.dt ≠ s.dt → ∃ x, i = .ldDtVx x)
    ∧ (t.st ≠ s.st → ∃ x, i = .ldStVx x)
    ∧ (t.mem ≠ s.mem → (∃ x, i = .ldBVx x) ∨ ∃ x, i = .ldMemVx x)

/-- R31: VF changes only by a flag writer, or by an instruction that names VF as its destination. -/
def Obligations.VfChangesOnlyAsNamed : Prop :=
  ∀ (i : Instr) (s t : State), exec i s = .next t → t.readV vf ≠ s.readV vf →
    (∃ x y, i = .addVxVy x y ∨ i = .subVxVy x y ∨ i = .subnVxVy x y) ∨ (∃ x, i = .shrVx x ∨ i = .shlVx x)
    ∨ (∃ x y n, i = .drw x y n)
    ∨ (∃ kk, i = .ldVxKk vf kk ∨ i = .addVxKk vf kk ∨ i = .rndVxKk vf kk)
    ∨ (∃ y, i = .ldVxVy vf y ∨ i = .orVxVy vf y ∨ i = .andVxVy vf y ∨ i = .xorVxVy vf y)
    ∨ i = .ldVxDt vf ∨ i = .ldVxK vf ∨ i = .ldVxMem vf

/-- R38: stack entries at or above SP are not observable: two states that agree in all else go on agreeing in all else,
and all their outputs are equal; and a pop does not clear them. -/
def Obligations.StaleStackIsUnobservable : Prop :=
  (∀ s t : State, s.SameButStale t →
    s.outcome = t.outcome ∧ s.fbPort = t.fbPort ∧ s.frameUpdate = t.frameUpdate ∧ s.buzzer = t.buzzer
      ∧ ∃ s' t', step s = .next s' ∧ step t = .next t' ∧ s'.SameButStale t')
  ∧ ∀ s t : State, exec .ret s = .next t → t.stack = s.stack

/-- R48: AWAIT (and FB_CHANGED) have no effect on execution. -/
def Obligations.StatusBitsHaveNoEffect : Prop :=
  ∀ (s : State) (b c : Bool), s.fault = false → step { s with await := b, fbChanged := c } = step s

/-- The parameters never change, and each step uses up one input of the host (R42; the input fields are the model's, log
entries 1 and 2). -/
def Obligations.ParametersNeverChange : Prop :=
  ∀ s t : State, step s = .next t → t.cfg = s.cfg ∧ t.inputs = s.inputs.tail ∧ t.steps = s.steps + 1

/-- R73: a store to the next instruction's bytes is what the next step fetches. -/
def Obligations.StoredInstructionIsFetched : Prop :=
  ∀ (s t : State) (x : RegIx), 1 ≤ x.val → s.BlockFits (x.val + 1) → exec (.ldMemVx x) s = .next t →
    t.fetchAddr.toNat = s.index.toNat → t.fetchWord.toNat = 256 * (s.readV 0).toNat + (s.readV 1).toNat

/-- A jump to itself changes nothing in a core that is READY with FB_CHANGED = 0: R123's "which every later step leaves
unchanged apart from `FB_CHANGED` and `AWAIT`, already 0", which the spec marks as its own inference from R112 and R131. -/
def Obligations.SelfJumpChangesNothing : Prop :=
  ∀ (s : State) (a : Addr), s.fault = false → s.await = false → s.fbChanged = false → s.pc = a.setWidth 16 →
    0x200 ≤ a.toNat → a.toNat < 0xFFE → decode s.fetchWord = .ok (.jp a) → cycle s = .next s

/-- R122: the control states, and their transitions by what the step does: it stays FAULTED, or it raises the fault of R257's
checks, suspends at the key wait, or completes its instruction. -/
def Obligations.ControlStateTransitions : Prop :=
  (∀ s : State, (s.control = .ready ↔ s.fault = false ∧ s.await = false)
    ∧ (s.control = .awaitKey ↔ s.fault = false ∧ s.await = true) ∧ (s.control = .faulted ↔ s.fault = true))
  ∧ (∀ s : State, ∃ t, cycle s = .next t
    ∧ (s.control = .faulted → t.control = .faulted)
    ∧ (s.control ≠ .faulted → stepFault s = none → ¬ Suspends s → t.outcome = .executed ∧ t.control = .ready)
    ∧ (s.control ≠ .faulted → stepFault s = none → Suspends s → t.outcome = .awaitingKey ∧ t.control = .awaitKey)
    ∧ (s.control ≠ .faulted → ∀ c, stepFault s = some c → t.outcome = .fault c ∧ t.control = .faulted))
  ∧ ∀ (s : State) (a : Addr) (b : Byte),
      s.rst.control = .ready ∧ s.tick.control = s.control ∧ (s.loadByte a b).control = s.control

/-! ## Control flow -/

/-- R131 and R132: the jumps, and the fetch address they lead to. -/
def Obligations.JumpsSetPc : Prop :=
  EncodedAs 0x1000 0xF000 (fun op => .jp (Decode.nnn op))
  ∧ EncodedAs 0xB000 0xF000 (fun op => .jpV0 (Decode.nnn op))
  ∧ ∀ (s : State) (nnn : Addr),
    Completes (.jp nnn) s false [.pc] (fun t => t.pc.toNat = nnn.toNat
      ∧ t.fetchAddr.toNat = if 0xFFE ≤ nnn.toNat then 0x200 else nnn.toNat)
    ∧ Completes (.jpV0 nnn) s false [.pc] (fun t => t.pc.toNat = ((s.readV 0).toNat + nnn.toNat) % 4096
      ∧ t.fetchAddr.toNat = if 0xFFE ≤ ((s.readV 0).toNat + nnn.toNat) % 4096 then 0x200
          else ((s.readV 0).toNat + nnn.toNat) % 4096)

/-- R133: CALL pushes fa + 2 and jumps; with SP = 16 it raises STACK_OVERFLOW and changes nothing else. -/
def Obligations.CallPushesAndJumps : Prop :=
  EncodedAs 0x2000 0xF000 (fun op => .call (Decode.nnn op))
  ∧ ∀ (s : State) (nnn : Addr),
    (∀ j : Fin 16, s.sp.toNat = j.val →
      Completes (.call nnn) s false [.pc, .sp, .entry j] fun t =>
        t.pc.toNat = nnn.toNat ∧ t.sp.toNat = j.val + 1 ∧ t.stack[j].toNat = s.fetchAddr.toNat + 2)
    ∧ (s.sp.toNat = 16 → Raises (.call nnn) s .stackOverflow)

/-- R130: RET pops the top entry into PC and leaves the entry as it is; with SP = 0 it raises STACK_UNDERFLOW. -/
def Obligations.RetPopsThePc : Prop :=
  EncodedAs 0x00EE 0xFFFF (fun _ => .ret)
  ∧ ∀ s : State,
    (∀ j : Fin 16, s.sp.toNat = j.val + 1 →
      Completes .ret s false [.pc, .sp] fun t => t.pc = s.stack[j] ∧ t.sp.toNat = j.val)
    ∧ (s.sp.toNat = 0 → Raises .ret s .stackUnderflow)

/-- A CALL and the RET that runs next lead to the address after the CALL, with SP as before: R134, which the spec marks as
its own inference from R133 and R130. -/
def Obligations.CallThenRetResumes : Prop :=
  ∀ (s t : State) (nnn : Addr), s.sp.toNat < 16 → exec (.call nnn) s = .next t →
    ∃ u, exec .ret t = .next u ∧ u.pc = s.fetchAddr + 2 ∧ u.sp = s.sp

/-- R135 to R138: the register skips: PC is fa + 4 when the condition holds, else fa + 2. -/
def Obligations.RegisterSkips : Prop :=
  EncodedAs 0x3000 0xF000 (fun op => .seVxKk (Decode.x op) (Decode.kk op))
  ∧ EncodedAs 0x4000 0xF000 (fun op => .sneVxKk (Decode.x op) (Decode.kk op))
  ∧ EncodedAs 0x5000 0xF00F (fun op => .seVxVy (Decode.x op) (Decode.y op))
  ∧ EncodedAs 0x9000 0xF00F (fun op => .sneVxVy (Decode.x op) (Decode.y op))
  ∧ ∀ (s : State) (x y : RegIx) (kk : Byte),
    Completes (.seVxKk x kk) s false [.pc] (fun t => t.pc.toNat = s.fetchAddr.toNat + if s.readV x = kk then 4 else 2)
    ∧ Completes (.sneVxKk x kk) s false [.pc] (fun t => t.pc.toNat = s.fetchAddr.toNat + if s.readV x ≠ kk then 4 else 2)
    ∧ Completes (.seVxVy x y) s false [.pc]
        (fun t => t.pc.toNat = s.fetchAddr.toNat + if s.readV x = s.readV y then 4 else 2)
    ∧ Completes (.sneVxVy x y) s false [.pc]
        (fun t => t.pc.toNat = s.fetchAddr.toNat + if s.readV x ≠ s.readV y then 4 else 2)

/-! ## Loads and the ALU -/

/-- R150 and R151: the register loads. -/
def Obligations.RegisterLoads : Prop :=
  EncodedAs 0x6000 0xF000 (fun op => .ldVxKk (Decode.x op) (Decode.kk op))
  ∧ EncodedAs 0x8000 0xF00F (fun op => .ldVxVy (Decode.x op) (Decode.y op))
  ∧ ∀ (s : State) (x y : RegIx) (kk : Byte),
    CompletesInLine (.ldVxKk x kk) s [.reg x] (fun t => t.readV x = kk)
    ∧ CompletesInLine (.ldVxVy x y) s [.reg x] (fun t => t.readV x = s.readV y)

/-- R152: ADD Vx, kk adds modulo 256 and writes no flag. -/
def Obligations.AddImmediateWraps : Prop :=
  EncodedAs 0x7000 0xF000 (fun op => .addVxKk (Decode.x op) (Decode.kk op))
  ∧ ∀ (s : State) (x : RegIx) (kk : Byte),
    CompletesInLine (.addVxKk x kk) s [.reg x] fun t => (t.readV x).toNat = ((s.readV x).toNat + kk.toNat) % 256

/-- R153 to R155: OR, AND and XOR act bit by bit and write no flag. -/
def Obligations.LogicActsBitByBit : Prop :=
  EncodedAs 0x8001 0xF00F (fun op => .orVxVy (Decode.x op) (Decode.y op))
  ∧ EncodedAs 0x8002 0xF00F (fun op => .andVxVy (Decode.x op) (Decode.y op))
  ∧ EncodedAs 0x8003 0xF00F (fun op => .xorVxVy (Decode.x op) (Decode.y op))
  ∧ ∀ (s : State) (x y : RegIx),
    CompletesInLine (.orVxVy x y) s [.reg x]
      (fun t => ∀ k < 8, (t.readV x).getLsbD k = ((s.readV x).getLsbD k || (s.readV y).getLsbD k))
    ∧ CompletesInLine (.andVxVy x y) s [.reg x]
      (fun t => ∀ k < 8, (t.readV x).getLsbD k = ((s.readV x).getLsbD k && (s.readV y).getLsbD k))
    ∧ CompletesInLine (.xorVxVy x y) s [.reg x]
      (fun t => ∀ k < 8, (t.readV x).getLsbD k = ((s.readV x).getLsbD k ^^ (s.readV y).getLsbD k))

/-- R156: ADD Vx, Vy: the sum modulo 256 and the carry, which VF ends as even when x is F. -/
def Obligations.AddSetsCarry : Prop :=
  EncodedAs 0x8004 0xF00F (fun op => .addVxVy (Decode.x op) (Decode.y op))
  ∧ ∀ (s : State) (x y : RegIx),
    CompletesInLine (.addVxVy x y) s [.reg x, .reg vf] fun t =>
      (x ≠ vf → (t.readV x).toNat = ((s.readV x).toNat + (s.readV y).toNat) % 256)
      ∧ t.readV vf = if (s.readV x).toNat + (s.readV y).toNat > 255 then 1 else 0

/-- R157 and R159: SUB and SUBN: the difference modulo 256, and VF = 1 iff the minuend is strictly greater. -/
def Obligations.SubtractionsSetTheFlag : Prop :=
  EncodedAs 0x8005 0xF00F (fun op => .subVxVy (Decode.x op) (Decode.y op))
  ∧ EncodedAs 0x8007 0xF00F (fun op => .subnVxVy (Decode.x op) (Decode.y op))
  ∧ ∀ (s : State) (x y : RegIx),
    CompletesInLine (.subVxVy x y) s [.reg x, .reg vf] (fun t =>
      (x ≠ vf → (t.readV x).toNat = ((s.readV x).toNat + 256 - (s.readV y).toNat) % 256)
      ∧ t.readV vf = if (s.readV x).toNat > (s.readV y).toNat then 1 else 0)
    ∧ CompletesInLine (.subnVxVy x y) s [.reg x, .reg vf] (fun t =>
      (x ≠ vf → (t.readV x).toNat = ((s.readV y).toNat + 256 - (s.readV x).toNat) % 256)
      ∧ t.readV vf = if (s.readV y).toNat > (s.readV x).toNat then 1 else 0)

/-- R158 and R160: SHR and SHL of V[x], with the bit shifted out in VF. -/
def Obligations.ShiftsSetTheFlag : Prop :=
  EncodedAs 0x8006 0xF00F (fun op => .shrVx (Decode.x op))
  ∧ EncodedAs 0x800E 0xF00F (fun op => .shlVx (Decode.x op))
  ∧ ∀ (s : State) (x : RegIx),
    CompletesInLine (.shrVx x) s [.reg x, .reg vf] (fun t =>
      (x ≠ vf → (t.readV x).toNat = (s.readV x).toNat / 2) ∧ (t.readV vf).toNat = (s.readV x).toNat % 2)
    ∧ CompletesInLine (.shlVx x) s [.reg x, .reg vf] (fun t =>
      (x ≠ vf → (t.readV x).toNat = (s.readV x).toNat * 2 % 256) ∧ (t.readV vf).toNat = (s.readV x).toNat / 128)

/-- R161: RND is the step's random byte, whatever it is, ANDed with kk; no flag. -/
def Obligations.RndMasksTheRandomByte : Prop :=
  EncodedAs 0xC000 0xF000 (fun op => .rndVxKk (Decode.x op) (Decode.kk op))
  ∧ ∀ (s : State) (x : RegIx) (kk : Byte),
    CompletesInLine (.rndVxKk x kk) s [.reg x] fun t =>
      ∀ k < 8, (t.readV x).getLsbD k = (s.rnd.getLsbD k && kk.getLsbD k)

/-! ## Display -/

/-- R180: CLS turns every pixel off and touches the display. -/
def Obligations.ClsClearsTheFrame : Prop :=
  EncodedAs 0x00E0 0xFFFF (fun _ => .cls)
  ∧ ∀ s : State, Completes .cls s true [.pc, .fb] fun t =>
    t.pc = s.fetchAddr + 2 ∧ ∀ r c, r < 32 → c < 64 → pixelAt t.fb r c = false

/-- R181 to R184: DRW toggles exactly the pixels under visible set sprite bits; VF ends as the collision flag. A
block that does not fit raises MEM_RANGE before any pixel changes. -/
def Obligations.DrwXorsTheSprite : Prop :=
  EncodedAs 0xD000 0xF000 (fun op => .drw (Decode.x op) (Decode.y op) (Decode.n op).toNat)
  ∧ ∀ (s : State) (x y : RegIx) (n : Nat), n < 16 →
    (s.BlockFits n →
      Completes (.drw x y n) s true [.pc, .fb, .reg vf] fun t =>
        t.pc = s.fetchAddr + 2
        ∧ (∀ r c, r < 32 → c < 64 → pixelAt t.fb r c
            = (pixelAt s.fb r c ^^ spriteBit s ((s.readV x).toNat % 64) ((s.readV y).toNat % 32) n r c))
        ∧ ((∃ r c, r < 32 ∧ c < 64 ∧ pixelAt s.fb r c = true
              ∧ spriteBit s ((s.readV x).toNat % 64) ((s.readV y).toNat % 32) n r c = true) → t.readV vf = 1)
        ∧ ((¬ ∃ r c, r < 32 ∧ c < 64 ∧ pixelAt s.fb r c = true
              ∧ spriteBit s ((s.readV x).toNat % 64) ((s.readV y).toNat % 32) n r c = true) → t.readV vf = 0))
    ∧ (¬ s.BlockFits n → Raises (.drw x y n) s .memRange)

/-- The same DRW twice restores the frame (R189). The second sets VF = 1 iff a visible set bit falls on a pixel that was off
before the first: that is what R181 gives, and log entry 18 says where R189's last sentence, an inference the spec marks as
its own, says otherwise. Where the frame was off under the sprite, the two agree, and that sentence is stated too. -/
def Obligations.DrawTwiceRestoresTheFrame : Prop :=
  ∀ (s t s2 : State) (x y : RegIx) (n : Nat), n < 16 → s.BlockFits n → exec (.drw x y n) s = .next t →
    s2.fb = t.fb → s2.cfg = s.cfg → s2.index = s.index → s2.readV x = s.readV x → s2.readV y = s.readV y →
    (∀ a ∈ s.span n, s2.readByte a = s.readByte a) →
    ∃ u, exec (.drw x y n) s2 = .next u ∧ u.fb = s.fb
      ∧ (u.readV vf = 1 ↔ ∃ r c, r < 32 ∧ c < 64 ∧ pixelAt s.fb r c = false
          ∧ spriteBit s ((s.readV x).toNat % 64) ((s.readV y).toNat % 32) n r c = true)
      ∧ ((∀ r c, r < 32 → c < 64 → spriteBit s ((s.readV x).toNat % 64) ((s.readV y).toNat % 32) n r c = true →
            pixelAt s.fb r c = false) →
          (u.readV vf = 1 ↔ ∃ r c, r < 32 ∧ c < 64
            ∧ spriteBit s ((s.readV x).toNat % 64) ((s.readV y).toNat % 32) n r c = true))

/-- Only CLS and DRW write the frame (R190), and after CLS one DRW leaves exactly its visible set bits on, with VF = 0, which
R190 marks as the spec's own inference from R180 and R181. -/
def Obligations.ClearThenDrawShowsTheSprite : Prop :=
  (∀ (i : Instr) (s t : State), exec i s = .next t → t.fb ≠ s.fb → i = .cls ∨ ∃ x y n, i = .drw x y n)
  ∧ ∀ (s t s2 u : State) (x y : RegIx) (n : Nat), n < 16 → exec .cls s = .next t → s2.fb = t.fb → s2.BlockFits n →
      exec (.drw x y n) s2 = .next u →
      u.readV vf = 0 ∧ ∀ r c, r < 32 → c < 64 →
        pixelAt u.fb r c = spriteBit s2 ((s2.readV x).toNat % 64) ((s2.readV y).toNat % 32) n r c

/-! ## Keys and timers -/

/-- R200 and R201: the key skips, and KEY_RANGE when V[x] names no key. -/
def Obligations.KeySkips : Prop :=
  EncodedAs 0xE09E 0xF0FF (fun op => .skpVx (Decode.x op))
  ∧ EncodedAs 0xE0A1 0xF0FF (fun op => .sknpVx (Decode.x op))
  ∧ ∀ (s : State) (x : RegIx),
    ((s.readV x).toNat ≤ 0x0F →
      Completes (.skpVx x) s false [.pc] (fun t => t.pc.toNat
        = s.fetchAddr.toNat + if s.keys.getLsbD (s.readV x).toNat = true then 4 else 2)
      ∧ Completes (.sknpVx x) s false [.pc] (fun t => t.pc.toNat
        = s.fetchAddr.toNat + if s.keys.getLsbD (s.readV x).toNat = false then 4 else 2))
    ∧ (0x0F < (s.readV x).toNat → Raises (.skpVx x) s .keyRange ∧ Raises (.sknpVx x) s .keyRange)

/-- R202 to R204: the timer transfers, and how long the buzzer stays on, which R204 marks as the spec's own inference. -/
def Obligations.TimerTransfers : Prop :=
  EncodedAs 0xF007 0xF0FF (fun op => .ldVxDt (Decode.x op))
  ∧ EncodedAs 0xF015 0xF0FF (fun op => .ldDtVx (Decode.x op))
  ∧ EncodedAs 0xF018 0xF0FF (fun op => .ldStVx (Decode.x op))
  ∧ ∀ (s : State) (x : RegIx),
    CompletesInLine (.ldVxDt x) s [.reg x] (fun t => t.readV x = s.dt)
    ∧ CompletesInLine (.ldDtVx x) s [.dt] (fun t => t.dt = s.readV x)
    ∧ CompletesInLine (.ldStVx x) s [.st] (fun t => t.st = s.readV x
        ∧ ∀ n, ((t.ticks n).buzzer = true ↔ n < (s.readV x).toNat))

/-- R205: with no key pressed LD Vx, K suspends and writes no register; else V[x] is the lowest pressed key. -/
def Obligations.KeyWaitLoadsTheLowestKey : Prop :=
  EncodedAs 0xF00A 0xF0FF (fun op => .ldVxK (Decode.x op))
  ∧ ∀ (s : State) (x : RegIx),
    (s.keys = 0 → ∃ t, exec (.ldVxK x) s = .next t ∧ t.pc = s.fetchAddr ∧ t.await = true ∧ t.fbChanged = false
      ∧ OnlyChanges [.pc, .await, .fbChanged] s t)
    ∧ ∀ k : RegIx, s.keys.getLsbD k.val = true → (∀ j : RegIx, j < k → s.keys.getLsbD j.val = false) →
        CompletesInLine (.ldVxK x) s [.reg x] fun t => (t.readV x).toNat = k.val

/-- The key-wait state machine: into AWAIT_KEY, staying there with no state change, and out of it; a step does not depend on
AWAIT: R208, which the spec marks as its own inference from R205 and R206. -/
def Obligations.KeyWaitStateMachine : Prop :=
  (∀ (s : State) (x : RegIx), s.fault = false → 0x200 ≤ s.fetchAddr.toNat → decode s.fetchWord = .ok (.ldVxK x) →
    (s.keys = 0 → ∃ t, cycle s = .next t ∧ t.control = .awaitKey ∧ t.pc = s.fetchAddr)
    ∧ (s.control = .awaitKey → s.Inv → s.keys = 0 → cycle s = .next s)
    ∧ (s.keys ≠ 0 → ∃ t, cycle s = .next t ∧ t.control = .ready ∧ t.pc = s.fetchAddr + 2
        ∧ s.keys.getLsbD (t.readV x).toNat = true ∧ ∀ j < (t.readV x).toNat, s.keys.getLsbD j = false)
    ∧ ∀ b, cycle { s with await := b } = cycle s)
  ∧ ∀ s : State, s.rst.control = .ready

/-- R210: one tick decrements each timer that is not zero and stops at 0; R211: in every state, and nothing else changes. -/
def Obligations.TickCountsDown : Prop :=
  ∀ s : State, s.tick.dt.toNat = s.dt.toNat - 1 ∧ s.tick.st.toNat = s.st.toNat - 1 ∧ OnlyChanges [.dt, .st] s s.tick

/-- The n ticks a step's input carries are n single ticks in a row (R212; log entry 3). -/
def Obligations.TicksAreRepeatedTicks : Prop :=
  ∀ s : State, s.ticks 0 = s ∧ ∀ n, s.ticks (n + 1) = (s.ticks n).tick

/-! ## Index register and memory -/

/-- R225 to R227: LD I, ADD I (modulo 4096, no flag) and LD F. -/
def Obligations.IndexRegisterWrites : Prop :=
  EncodedAs 0xA000 0xF000 (fun op => .ldINnn (Decode.nnn op))
  ∧ EncodedAs 0xF01E 0xF0FF (fun op => .addIVx (Decode.x op))
  ∧ EncodedAs 0xF029 0xF0FF (fun op => .ldFVx (Decode.x op))
  ∧ ∀ (s : State) (x : RegIx) (nnn : Addr),
    CompletesInLine (.ldINnn nnn) s [.index] (fun t => t.index = nnn)
    ∧ CompletesInLine (.addIVx x) s [.index] (fun t => t.index.toNat = (s.index.toNat + (s.readV x).toNat) % 4096)
    ∧ (s.cfg.Legal → CompletesInLine (.ldFVx x) s [.index]
        (fun t => t.index.toNat = s.cfg.fontBase.toNat + 5 * ((s.readV x).toNat % 16)))

/-- R228: LD B stores the three digits at EA(I, 0..2) and nothing else; a block that does not fit raises MEM_RANGE. -/
def Obligations.StoreDigits : Prop :=
  EncodedAs 0xF033 0xF0FF (fun op => .ldBVx (Decode.x op))
  ∧ ∀ (s : State) (x : RegIx),
    (s.BlockFits 3 →
      CompletesInLine (.ldBVx x) s ((s.span 3).map Part.byte) fun t =>
        ∃ a0 a1 a2, s.span 3 = [a0, a1, a2] ∧ a0.toNat = s.index.toNat ∧ a1.toNat = (s.index.toNat + 1) % 4096
          ∧ a2.toNat = (s.index.toNat + 2) % 4096
          ∧ (t.readByte a0).toNat = (s.readV x).toNat / 100 ∧ (t.readByte a1).toNat = (s.readV x).toNat / 10 % 10
          ∧ (t.readByte a2).toNat = (s.readV x).toNat % 10)
    ∧ (¬ s.BlockFits 3 → Raises (.ldBVx x) s .memRange)

/-- R229: LD [I], Vx stores V[0] to V[x] at EA(I, 0..x) and nothing else; a block that does not fit raises MEM_RANGE. -/
def Obligations.StoreRegisters : Prop :=
  EncodedAs 0xF055 0xF0FF (fun op => .ldMemVx (Decode.x op))
  ∧ ∀ (s : State) (x : RegIx),
    (s.BlockFits (x.val + 1) →
      CompletesInLine (.ldMemVx x) s ((s.span (x.val + 1)).map Part.byte) fun t =>
        ∀ k : RegIx, k ≤ x → ∃ a, effAddr s.cfg.addrOverflow s.index k.val = some a
          ∧ a.toNat = (s.index.toNat + k.val) % 4096 ∧ t.readByte a = s.readV k)
    ∧ (¬ s.BlockFits (x.val + 1) → Raises (.ldMemVx x) s .memRange)

/-- R230: LD Vx, [I] loads V[0] to V[x] from EA(I, 0..x) and nothing else; a block that does not fit raises MEM_RANGE. -/
def Obligations.LoadRegisters : Prop :=
  EncodedAs 0xF065 0xF0FF (fun op => .ldVxMem (Decode.x op))
  ∧ ∀ (s : State) (x : RegIx),
    (s.BlockFits (x.val + 1) →
      CompletesInLine (.ldVxMem x) s (((List.finRange 16).filter (· ≤ x)).map Part.reg) fun t =>
        ∀ k : RegIx, k ≤ x → t.readV k = s.readByte (BitVec.ofNat 12 (s.index.toNat + k.val)))
    ∧ (¬ s.BlockFits (x.val + 1) → Raises (.ldVxMem x) s .memRange)

/-- R253: under ADDR_OVERFLOW = fault a block that passes 0xFFF raises MEM_RANGE; under wrap nothing does. -/
def Obligations.MemRangeOnlyUnderFault : Prop :=
  ∀ s : State,
    (s.cfg.addrOverflow = .fault → ∀ x y : RegIx,
      (∀ n, 0xFFF < s.index.toNat + n - 1 → Raises (.drw x y n) s .memRange)
      ∧ (0xFFF < s.index.toNat + 2 → Raises (.ldBVx x) s .memRange)
      ∧ (0xFFF < s.index.toNat + x.val → Raises (.ldMemVx x) s .memRange ∧ Raises (.ldVxMem x) s .memRange))
    ∧ (s.cfg.addrOverflow = .wrap → s.fault = false → ∀ t, cycle s = .next t → t.outcome ≠ .fault .memRange)

/-! ## The interface -/

/-- R118: rst alone if asserted; else the load write, then the step with the transaction's own input, then the tick. That a
step takes its input from a schedule and counts the steps is the model's form (log entry 2). -/
def Obligations.TransactionOrder : Prop :=
  ∀ (tr : Transaction) (s : State),
    (tr.rst = true → transact tr s = .next s.rst)
    ∧ (tr.rst = false → tr.stepReq = false →
        transact tr s = .next (if tr.tick then (tr.afterLoad s).tick else tr.afterLoad s))
    ∧ (tr.rst = false → tr.stepReq = true →
        ∃ s1 w, s1 = { tr.afterLoad s with inputs := tr.stepInput :: s.inputs } ∧ s1.keys = tr.keys ∧ s1.rnd = tr.rnd
          ∧ cycle s1 = .next w
          ∧ transact tr s = .next { (if tr.tick then w.tick else w) with inputs := s.inputs, steps := s.steps + 1 })

/-- R121: a load write stores one byte; an image of at most 3584 bytes occupies 0x200 on, verbatim, and nothing else. -/
def Obligations.LoadPortStoresBytes : Prop :=
  ∀ (s : State) (a : Addr) (b : Byte) (image : List Byte), image.length ≤ 3584 →
    (s.loadByte a b).readByte a = b ∧ OnlyChanges [.byte a] s (s.loadByte a b)
    ∧ (∀ k (h : k < image.length), (s.loadImage image).readByte (BitVec.ofNat 12 (0x200 + k)) = image[k])
    ∧ ∀ p : Part, (∀ k < image.length, p ≠ .byte (BitVec.ofNat 12 (0x200 + k))) → p.Same s (s.loadImage image)

/-- R114: bit r * 64 + c of the fb port is FB[r][c]. -/
def Obligations.FramePortLayout : Prop :=
  ∀ (s : State) (r c : Nat), r < 32 → c < 64 → s.fbPort.getLsbD (r * 64 + c) = pixelAt s.fb r c

/-- R113: after a step that completed CLS or DRW the result is the new frame, whether or not a pixel changed; after every
other step it is "unchanged". -/
def Obligations.FrameUpdateAfterAStep : Prop :=
  ∀ s t : State, cycle s = .next t →
    (s.fault = true → t.frameUpdate = none)
    ∧ (s.fault = false → (stepFault s = none ∧ ∃ i, decode s.fetchWord = .ok i ∧ i.touchesDisplay = true) →
        t.frameUpdate = some t.fbPort)
    ∧ (s.fault = false → ¬ (stepFault s = none ∧ ∃ i, decode s.fetchWord = .ok i ∧ i.touchesDisplay = true) →
        t.frameUpdate = none)

/-- R115 and R116: the buzzer level and the desired period, for a CYCLE_HZ that has a reciprocal (log entry 19); the codes of
R117 and R250. -/
def Obligations.OutputLevelsAndCodes : Prop :=
  (∀ s : State, (s.buzzer = true ↔ s.st ≠ 0) ∧ s.outcomeCode ≠ 3
    ∧ (s.outcome = .executed → s.outcomeCode = 0) ∧ (s.outcome = .awaitingKey → s.outcomeCode = 1)
    ∧ (∀ c, s.outcome = .fault c → s.outcomeCode = 2))
  ∧ (∀ c : Config, c.cycleHz ≠ 0 → desiredPeriod c * c.cycleHz = 1) ∧ desiredPeriod State.reset.cfg = 1 / 700
  ∧ ([.none, .invalidOpcode, .stackOverflow, .stackUnderflow, .memRange, .keyRange, .reservedFetch] : List FaultCause).map
      FaultCause.code = [0, 1, 2, 3, 4, 5, 6]
end

