-- ==== Sys2Proof/Laws/Decode.lean ====
section
/-! SUPPORT. The fields of a word as numbers, the word of its fields, and what a mask keeps. -/

namespace Sys2Proof

theorem Decode.n1_toNat (w : Word) : (Decode.n1 w).toNat = w.toNat / 4096 := by
  have := w.isLt
  simp [Decode.n1, Nat.shiftRight_eq_div_pow]; omega

theorem Decode.x_val (w : Word) : (Decode.x w).val = w.toNat / 256 % 16 := by
  simp [Decode.x, Nat.shiftRight_eq_div_pow]

theorem Decode.y_val (w : Word) : (Decode.y w).val = w.toNat / 16 % 16 := by
  simp [Decode.y, Nat.shiftRight_eq_div_pow]

theorem Decode.n_toNat (w : Word) : (Decode.n w).toNat = w.toNat % 16 := by simp [Decode.n]

theorem Decode.kk_toNat (w : Word) : (Decode.kk w).toNat = w.toNat % 256 := by simp [Decode.kk]

theorem Decode.nnn_toNat (w : Word) : (Decode.nnn w).toNat = w.toNat % 4096 := by simp [Decode.nnn]

theorem regNibble_toNat (r : RegIx) : (regNibble r).toNat = r.val := rfl

theorem ofNibbles_toNat (a b c d : Nibble) :
    (ofNibbles a b c d).toNat = a.toNat * 4096 + b.toNat * 256 + c.toNat * 16 + d.toNat := by
  simp [ofNibbles]; omega

theorem ofNibblesByte_toNat (a b : Nibble) (k : Byte) :
    (ofNibblesByte a b k).toNat = a.toNat * 4096 + b.toNat * 256 + k.toNat := by
  simp [ofNibblesByte]; omega

theorem ofNibbleAddr_toNat (a : Nibble) (k : Addr) : (ofNibbleAddr a k).toNat = a.toNat * 4096 + k.toNat := by
  simp [ofNibbleAddr]; omega

theorem ofBytes_toNat (hi lo : Byte) : (ofBytes hi lo).toNat = hi.toNat * 256 + lo.toNat := by
  simp [ofBytes]; omega

theorem highByte_toNat (w : Word) : (highByte w).toNat = w.toNat / 256 := by
  have := w.isLt
  simp [highByte, Nat.shiftRight_eq_div_pow]; omega

theorem lowByte_toNat (w : Word) : (lowByte w).toNat = w.toNat % 256 := by simp [lowByte]

/-- Splitting a word into its bytes and joining them gives the word (R62). -/
theorem ofBytes_highByte_lowByte (w : Word) : ofBytes (highByte w) (lowByte w) = w := by
  apply BitVec.eq_of_toNat_eq
  rw [ofBytes_toNat, highByte_toNat, lowByte_toNat]; omega

/-- A word is its four nibbles (R26). -/
theorem ofNibbles_fields (w : Word) :
    ofNibbles (Decode.n1 w) (regNibble (Decode.x w)) (regNibble (Decode.y w)) (Decode.n w) = w := by
  apply BitVec.eq_of_toNat_eq
  rw [ofNibbles_toNat, Decode.n1_toNat, regNibble_toNat, regNibble_toNat, Decode.x_val, Decode.y_val, Decode.n_toNat]
  omega

theorem ofNibblesByte_eq (a b : Nibble) (k : Byte) :
    ofNibblesByte a b k = ofNibbles a b (BitVec.ofNat 4 (k.toNat / 16)) (BitVec.ofNat 4 (k.toNat % 16)) := by
  apply BitVec.eq_of_toNat_eq
  rw [ofNibblesByte_toNat, ofNibbles_toNat]; simp; omega

theorem ofNibbleAddr_eq (a : Nibble) (k : Addr) :
    ofNibbleAddr a k = ofNibbles a (BitVec.ofNat 4 (k.toNat / 256)) (BitVec.ofNat 4 (k.toNat / 16 % 16))
      (BitVec.ofNat 4 (k.toNat % 16)) := by
  apply BitVec.eq_of_toNat_eq
  rw [ofNibbleAddr_toNat, ofNibbles_toNat]; simp; omega

theorem append_toNat {m n : Nat} (a : BitVec m) (b : BitVec n) : (a ++ b).toNat = a.toNat * 2 ^ n + b.toNat := by
  rw [BitVec.toNat_append, ← Nat.shiftLeft_add_eq_or_of_lt b.isLt, Nat.shiftLeft_eq]

theorem ofNibbles_eq_append (a b c d : Nibble) : ofNibbles a b c d = a ++ (b ++ (c ++ d)) := by
  apply BitVec.eq_of_toNat_eq
  rw [append_toNat, append_toNat, append_toNat]
  simp [ofNibbles]; omega

/-- A mask acts nibble by nibble (R84). -/
theorem ofNibbles_and (a b c d a' b' c' d' : Nibble) :
    ofNibbles a b c d &&& ofNibbles a' b' c' d' = ofNibbles (a &&& a') (b &&& b') (c &&& c') (d &&& d') := by
  rw [ofNibbles_eq_append, ofNibbles_eq_append, ofNibbles_eq_append]
  exact BitVec.and_append.trans (congrArg _ (BitVec.and_append.trans (congrArg _ BitVec.and_append)))

/-- Words are equal exactly when their nibbles are. -/
theorem ofNibbles_inj (a b c d a' b' c' d' : Nibble) :
    ofNibbles a b c d = ofNibbles a' b' c' d' ↔ a = a' ∧ b = b' ∧ c = c' ∧ d = d' := by
  constructor
  · intro h
    have h := congrArg BitVec.toNat h
    rw [ofNibbles_toNat, ofNibbles_toNat] at h
    simp only [← BitVec.toNat_inj]
    omega
  · rintro ⟨rfl, rfl, rfl, rfl⟩; rfl

theorem ofNibbles_and_F000 (a b c d : Nibble) : ofNibbles a b c d &&& 0xF000#16 = ofNibbles a 0 0 0 := by
  have h := ofNibbles_and a b c d 0xF#4 0#4 0#4 0#4
  have ha : a &&& 0xF#4 = a := BitVec.and_allOnes (x := a)
  rwa [ha, BitVec.and_zero, BitVec.and_zero, BitVec.and_zero] at h

theorem ofNibbles_and_F00F (a b c d : Nibble) : ofNibbles a b c d &&& 0xF00F#16 = ofNibbles a 0 0 d := by
  have h := ofNibbles_and a b c d 0xF#4 0#4 0#4 0xF#4
  have ha : a &&& 0xF#4 = a := BitVec.and_allOnes (x := a)
  have hd : d &&& 0xF#4 = d := BitVec.and_allOnes (x := d)
  rwa [ha, hd, BitVec.and_zero, BitVec.and_zero] at h

theorem ofNibbles_and_F0FF (a b c d : Nibble) : ofNibbles a b c d &&& 0xF0FF#16 = ofNibbles a 0 c d := by
  have h := ofNibbles_and a b c d 0xF#4 0#4 0xF#4 0xF#4
  have ha : a &&& 0xF#4 = a := BitVec.and_allOnes (x := a)
  have hc : c &&& 0xF#4 = c := BitVec.and_allOnes (x := c)
  have hd : d &&& 0xF#4 = d := BitVec.and_allOnes (x := d)
  rwa [ha, hc, hd, BitVec.and_zero] at h

/-- What decoding answers, by the opcode map. -/
theorem decode_eq_ok (op : Word) (i : Instr) : decode op = .ok i ↔ Decode.byGroup op = some i := by
  unfold decode
  cases Decode.byGroup op <;> simp

theorem decode_eq_error (op : Word) (e : DecodeError) :
    decode op = .error e ↔ Decode.byGroup op = none ∧ e = .invalidOpcode op := by
  unfold decode
  cases Decode.byGroup op <;> simp [eq_comm]

end Sys2Proof
end

