-- ==== Sys2Proof/Laws/State.lean ====
section
/-! SUPPORT. One lemma per field and named update of the state, true by rfl (by cases for skipIf, by induction for writeBytes), so that no proof unfolds a record
update. -/

namespace Sys2Proof.Machine

variable (s : State)

@[simp] theorem State.writeV_v (r : RegIx) (b : Byte) : (s.writeV r b).v = s.v.set r b := rfl
@[simp] theorem State.writeV_pc (r : RegIx) (b : Byte) : (s.writeV r b).pc = s.pc := rfl
@[simp] theorem State.writeV_index (r : RegIx) (b : Byte) : (s.writeV r b).index = s.index := rfl
@[simp] theorem State.writeV_sp (r : RegIx) (b : Byte) : (s.writeV r b).sp = s.sp := rfl
@[simp] theorem State.writeV_stack (r : RegIx) (b : Byte) : (s.writeV r b).stack = s.stack := rfl
@[simp] theorem State.writeV_dt (r : RegIx) (b : Byte) : (s.writeV r b).dt = s.dt := rfl
@[simp] theorem State.writeV_st (r : RegIx) (b : Byte) : (s.writeV r b).st = s.st := rfl
@[simp] theorem State.writeV_fb (r : RegIx) (b : Byte) : (s.writeV r b).fb = s.fb := rfl
@[simp] theorem State.writeV_mem (r : RegIx) (b : Byte) : (s.writeV r b).mem = s.mem := rfl
@[simp] theorem State.writeV_await (r : RegIx) (b : Byte) : (s.writeV r b).await = s.await := rfl
@[simp] theorem State.writeV_fbChanged (r : RegIx) (b : Byte) : (s.writeV r b).fbChanged = s.fbChanged := rfl
@[simp] theorem State.writeV_fault (r : RegIx) (b : Byte) : (s.writeV r b).fault = s.fault := rfl
@[simp] theorem State.writeV_faultCause (r : RegIx) (b : Byte) : (s.writeV r b).faultCause = s.faultCause := rfl
@[simp] theorem State.writeV_faultPc (r : RegIx) (b : Byte) : (s.writeV r b).faultPc = s.faultPc := rfl
@[simp] theorem State.writeV_faultOp (r : RegIx) (b : Byte) : (s.writeV r b).faultOp = s.faultOp := rfl
@[simp] theorem State.writeV_cfg (r : RegIx) (b : Byte) : (s.writeV r b).cfg = s.cfg := rfl
@[simp] theorem State.writeV_inputs (r : RegIx) (b : Byte) : (s.writeV r b).inputs = s.inputs := rfl
@[simp] theorem State.writeV_steps (r : RegIx) (b : Byte) : (s.writeV r b).steps = s.steps := rfl

@[simp] theorem State.writeRegs_v (bs : List Byte) : (s.writeRegs bs).v = s.v.mapIdx fun k old => (bs[k]?).getD old := rfl
@[simp] theorem State.writeRegs_pc (bs : List Byte) : (s.writeRegs bs).pc = s.pc := rfl
@[simp] theorem State.writeRegs_index (bs : List Byte) : (s.writeRegs bs).index = s.index := rfl
@[simp] theorem State.writeRegs_sp (bs : List Byte) : (s.writeRegs bs).sp = s.sp := rfl
@[simp] theorem State.writeRegs_stack (bs : List Byte) : (s.writeRegs bs).stack = s.stack := rfl
@[simp] theorem State.writeRegs_dt (bs : List Byte) : (s.writeRegs bs).dt = s.dt := rfl
@[simp] theorem State.writeRegs_st (bs : List Byte) : (s.writeRegs bs).st = s.st := rfl
@[simp] theorem State.writeRegs_fb (bs : List Byte) : (s.writeRegs bs).fb = s.fb := rfl
@[simp] theorem State.writeRegs_mem (bs : List Byte) : (s.writeRegs bs).mem = s.mem := rfl
@[simp] theorem State.writeRegs_await (bs : List Byte) : (s.writeRegs bs).await = s.await := rfl
@[simp] theorem State.writeRegs_fbChanged (bs : List Byte) : (s.writeRegs bs).fbChanged = s.fbChanged := rfl
@[simp] theorem State.writeRegs_fault (bs : List Byte) : (s.writeRegs bs).fault = s.fault := rfl
@[simp] theorem State.writeRegs_faultCause (bs : List Byte) : (s.writeRegs bs).faultCause = s.faultCause := rfl
@[simp] theorem State.writeRegs_faultPc (bs : List Byte) : (s.writeRegs bs).faultPc = s.faultPc := rfl
@[simp] theorem State.writeRegs_faultOp (bs : List Byte) : (s.writeRegs bs).faultOp = s.faultOp := rfl
@[simp] theorem State.writeRegs_cfg (bs : List Byte) : (s.writeRegs bs).cfg = s.cfg := rfl
@[simp] theorem State.writeRegs_inputs (bs : List Byte) : (s.writeRegs bs).inputs = s.inputs := rfl
@[simp] theorem State.writeRegs_steps (bs : List Byte) : (s.writeRegs bs).steps = s.steps := rfl

@[simp] theorem State.writeByte_v (a : Addr) (b : Byte) : (s.writeByte a b).v = s.v := rfl
@[simp] theorem State.writeByte_pc (a : Addr) (b : Byte) : (s.writeByte a b).pc = s.pc := rfl
@[simp] theorem State.writeByte_index (a : Addr) (b : Byte) : (s.writeByte a b).index = s.index := rfl
@[simp] theorem State.writeByte_sp (a : Addr) (b : Byte) : (s.writeByte a b).sp = s.sp := rfl
@[simp] theorem State.writeByte_stack (a : Addr) (b : Byte) : (s.writeByte a b).stack = s.stack := rfl
@[simp] theorem State.writeByte_dt (a : Addr) (b : Byte) : (s.writeByte a b).dt = s.dt := rfl
@[simp] theorem State.writeByte_st (a : Addr) (b : Byte) : (s.writeByte a b).st = s.st := rfl
@[simp] theorem State.writeByte_fb (a : Addr) (b : Byte) : (s.writeByte a b).fb = s.fb := rfl
@[simp] theorem State.writeByte_mem (a : Addr) (b : Byte) : (s.writeByte a b).mem = memWrite s.cfg s.mem a.toNat b := rfl
@[simp] theorem State.writeByte_await (a : Addr) (b : Byte) : (s.writeByte a b).await = s.await := rfl
@[simp] theorem State.writeByte_fbChanged (a : Addr) (b : Byte) : (s.writeByte a b).fbChanged = s.fbChanged := rfl
@[simp] theorem State.writeByte_fault (a : Addr) (b : Byte) : (s.writeByte a b).fault = s.fault := rfl
@[simp] theorem State.writeByte_faultCause (a : Addr) (b : Byte) : (s.writeByte a b).faultCause = s.faultCause := rfl
@[simp] theorem State.writeByte_faultPc (a : Addr) (b : Byte) : (s.writeByte a b).faultPc = s.faultPc := rfl
@[simp] theorem State.writeByte_faultOp (a : Addr) (b : Byte) : (s.writeByte a b).faultOp = s.faultOp := rfl
@[simp] theorem State.writeByte_cfg (a : Addr) (b : Byte) : (s.writeByte a b).cfg = s.cfg := rfl
@[simp] theorem State.writeByte_inputs (a : Addr) (b : Byte) : (s.writeByte a b).inputs = s.inputs := rfl
@[simp] theorem State.writeByte_steps (a : Addr) (b : Byte) : (s.writeByte a b).steps = s.steps := rfl

@[simp] theorem State.advance_v : (s.advance).v = s.v := rfl
@[simp] theorem State.advance_pc : (s.advance).pc = s.fetchAddr + 2 := rfl
@[simp] theorem State.advance_index : (s.advance).index = s.index := rfl
@[simp] theorem State.advance_sp : (s.advance).sp = s.sp := rfl
@[simp] theorem State.advance_stack : (s.advance).stack = s.stack := rfl
@[simp] theorem State.advance_dt : (s.advance).dt = s.dt := rfl
@[simp] theorem State.advance_st : (s.advance).st = s.st := rfl
@[simp] theorem State.advance_fb : (s.advance).fb = s.fb := rfl
@[simp] theorem State.advance_mem : (s.advance).mem = s.mem := rfl
@[simp] theorem State.advance_await : (s.advance).await = s.await := rfl
@[simp] theorem State.advance_fbChanged : (s.advance).fbChanged = s.fbChanged := rfl
@[simp] theorem State.advance_fault : (s.advance).fault = s.fault := rfl
@[simp] theorem State.advance_faultCause : (s.advance).faultCause = s.faultCause := rfl
@[simp] theorem State.advance_faultPc : (s.advance).faultPc = s.faultPc := rfl
@[simp] theorem State.advance_faultOp : (s.advance).faultOp = s.faultOp := rfl
@[simp] theorem State.advance_cfg : (s.advance).cfg = s.cfg := rfl
@[simp] theorem State.advance_inputs : (s.advance).inputs = s.inputs := rfl
@[simp] theorem State.advance_steps : (s.advance).steps = s.steps := rfl

@[simp] theorem State.skip_v : (s.skip).v = s.v := rfl
@[simp] theorem State.skip_pc : (s.skip).pc = s.pc + 2 := rfl
@[simp] theorem State.skip_index : (s.skip).index = s.index := rfl
@[simp] theorem State.skip_sp : (s.skip).sp = s.sp := rfl
@[simp] theorem State.skip_stack : (s.skip).stack = s.stack := rfl
@[simp] theorem State.skip_dt : (s.skip).dt = s.dt := rfl
@[simp] theorem State.skip_st : (s.skip).st = s.st := rfl
@[simp] theorem State.skip_fb : (s.skip).fb = s.fb := rfl
@[simp] theorem State.skip_mem : (s.skip).mem = s.mem := rfl
@[simp] theorem State.skip_await : (s.skip).await = s.await := rfl
@[simp] theorem State.skip_fbChanged : (s.skip).fbChanged = s.fbChanged := rfl
@[simp] theorem State.skip_fault : (s.skip).fault = s.fault := rfl
@[simp] theorem State.skip_faultCause : (s.skip).faultCause = s.faultCause := rfl
@[simp] theorem State.skip_faultPc : (s.skip).faultPc = s.faultPc := rfl
@[simp] theorem State.skip_faultOp : (s.skip).faultOp = s.faultOp := rfl
@[simp] theorem State.skip_cfg : (s.skip).cfg = s.cfg := rfl
@[simp] theorem State.skip_inputs : (s.skip).inputs = s.inputs := rfl
@[simp] theorem State.skip_steps : (s.skip).steps = s.steps := rfl

@[simp] theorem State.jump_v (a : Addr) : (s.jump a).v = s.v := rfl
@[simp] theorem State.jump_pc (a : Addr) : (s.jump a).pc = a.setWidth 16 := rfl
@[simp] theorem State.jump_index (a : Addr) : (s.jump a).index = s.index := rfl
@[simp] theorem State.jump_sp (a : Addr) : (s.jump a).sp = s.sp := rfl
@[simp] theorem State.jump_stack (a : Addr) : (s.jump a).stack = s.stack := rfl
@[simp] theorem State.jump_dt (a : Addr) : (s.jump a).dt = s.dt := rfl
@[simp] theorem State.jump_st (a : Addr) : (s.jump a).st = s.st := rfl
@[simp] theorem State.jump_fb (a : Addr) : (s.jump a).fb = s.fb := rfl
@[simp] theorem State.jump_mem (a : Addr) : (s.jump a).mem = s.mem := rfl
@[simp] theorem State.jump_await (a : Addr) : (s.jump a).await = s.await := rfl
@[simp] theorem State.jump_fbChanged (a : Addr) : (s.jump a).fbChanged = s.fbChanged := rfl
@[simp] theorem State.jump_fault (a : Addr) : (s.jump a).fault = s.fault := rfl
@[simp] theorem State.jump_faultCause (a : Addr) : (s.jump a).faultCause = s.faultCause := rfl
@[simp] theorem State.jump_faultPc (a : Addr) : (s.jump a).faultPc = s.faultPc := rfl
@[simp] theorem State.jump_faultOp (a : Addr) : (s.jump a).faultOp = s.faultOp := rfl
@[simp] theorem State.jump_cfg (a : Addr) : (s.jump a).cfg = s.cfg := rfl
@[simp] theorem State.jump_inputs (a : Addr) : (s.jump a).inputs = s.inputs := rfl
@[simp] theorem State.jump_steps (a : Addr) : (s.jump a).steps = s.steps := rfl

@[simp] theorem State.push_v (w : Word) : (s.push w).v = s.v := rfl
@[simp] theorem State.push_pc (w : Word) : (s.push w).pc = s.pc := rfl
@[simp] theorem State.push_index (w : Word) : (s.push w).index = s.index := rfl
@[simp] theorem State.push_sp (w : Word) : (s.push w).sp = s.sp + 1 := rfl
@[simp] theorem State.push_stack (w : Word) : (s.push w).stack = s.stack.setIfInBounds s.sp.toNat w := rfl
@[simp] theorem State.push_dt (w : Word) : (s.push w).dt = s.dt := rfl
@[simp] theorem State.push_st (w : Word) : (s.push w).st = s.st := rfl
@[simp] theorem State.push_fb (w : Word) : (s.push w).fb = s.fb := rfl
@[simp] theorem State.push_mem (w : Word) : (s.push w).mem = s.mem := rfl
@[simp] theorem State.push_await (w : Word) : (s.push w).await = s.await := rfl
@[simp] theorem State.push_fbChanged (w : Word) : (s.push w).fbChanged = s.fbChanged := rfl
@[simp] theorem State.push_fault (w : Word) : (s.push w).fault = s.fault := rfl
@[simp] theorem State.push_faultCause (w : Word) : (s.push w).faultCause = s.faultCause := rfl
@[simp] theorem State.push_faultPc (w : Word) : (s.push w).faultPc = s.faultPc := rfl
@[simp] theorem State.push_faultOp (w : Word) : (s.push w).faultOp = s.faultOp := rfl
@[simp] theorem State.push_cfg (w : Word) : (s.push w).cfg = s.cfg := rfl
@[simp] theorem State.push_inputs (w : Word) : (s.push w).inputs = s.inputs := rfl
@[simp] theorem State.push_steps (w : Word) : (s.push w).steps = s.steps := rfl

@[simp] theorem State.popPc_v : (s.popPc).v = s.v := rfl
@[simp] theorem State.popPc_pc : (s.popPc).pc = (s.stack[(s.sp - 1).toNat]?).getD 0 := rfl
@[simp] theorem State.popPc_index : (s.popPc).index = s.index := rfl
@[simp] theorem State.popPc_sp : (s.popPc).sp = s.sp - 1 := rfl
@[simp] theorem State.popPc_stack : (s.popPc).stack = s.stack := rfl
@[simp] theorem State.popPc_dt : (s.popPc).dt = s.dt := rfl
@[simp] theorem State.popPc_st : (s.popPc).st = s.st := rfl
@[simp] theorem State.popPc_fb : (s.popPc).fb = s.fb := rfl
@[simp] theorem State.popPc_mem : (s.popPc).mem = s.mem := rfl
@[simp] theorem State.popPc_await : (s.popPc).await = s.await := rfl
@[simp] theorem State.popPc_fbChanged : (s.popPc).fbChanged = s.fbChanged := rfl
@[simp] theorem State.popPc_fault : (s.popPc).fault = s.fault := rfl
@[simp] theorem State.popPc_faultCause : (s.popPc).faultCause = s.faultCause := rfl
@[simp] theorem State.popPc_faultPc : (s.popPc).faultPc = s.faultPc := rfl
@[simp] theorem State.popPc_faultOp : (s.popPc).faultOp = s.faultOp := rfl
@[simp] theorem State.popPc_cfg : (s.popPc).cfg = s.cfg := rfl
@[simp] theorem State.popPc_inputs : (s.popPc).inputs = s.inputs := rfl
@[simp] theorem State.popPc_steps : (s.popPc).steps = s.steps := rfl

@[simp] theorem State.takeFault_v (c : FaultCause) : (s.takeFault c).v = s.v := rfl
@[simp] theorem State.takeFault_pc (c : FaultCause) : (s.takeFault c).pc = s.pc := rfl
@[simp] theorem State.takeFault_index (c : FaultCause) : (s.takeFault c).index = s.index := rfl
@[simp] theorem State.takeFault_sp (c : FaultCause) : (s.takeFault c).sp = s.sp := rfl
@[simp] theorem State.takeFault_stack (c : FaultCause) : (s.takeFault c).stack = s.stack := rfl
@[simp] theorem State.takeFault_dt (c : FaultCause) : (s.takeFault c).dt = s.dt := rfl
@[simp] theorem State.takeFault_st (c : FaultCause) : (s.takeFault c).st = s.st := rfl
@[simp] theorem State.takeFault_fb (c : FaultCause) : (s.takeFault c).fb = s.fb := rfl
@[simp] theorem State.takeFault_mem (c : FaultCause) : (s.takeFault c).mem = s.mem := rfl
@[simp] theorem State.takeFault_await (c : FaultCause) : (s.takeFault c).await = false := rfl
@[simp] theorem State.takeFault_fbChanged (c : FaultCause) : (s.takeFault c).fbChanged = false := rfl
@[simp] theorem State.takeFault_fault (c : FaultCause) : (s.takeFault c).fault = true := rfl
@[simp] theorem State.takeFault_faultCause (c : FaultCause) : (s.takeFault c).faultCause = c := rfl
@[simp] theorem State.takeFault_faultPc (c : FaultCause) : (s.takeFault c).faultPc = s.fetchAddr := rfl
@[simp] theorem State.takeFault_faultOp (c : FaultCause) : (s.takeFault c).faultOp = if c = .reservedFetch then 0 else s.fetchWord := rfl
@[simp] theorem State.takeFault_cfg (c : FaultCause) : (s.takeFault c).cfg = s.cfg := rfl
@[simp] theorem State.takeFault_inputs (c : FaultCause) : (s.takeFault c).inputs = s.inputs := rfl
@[simp] theorem State.takeFault_steps (c : FaultCause) : (s.takeFault c).steps = s.steps := rfl

@[simp] theorem State.complete_v (b : Bool) : (s.complete b).v = s.v := rfl
@[simp] theorem State.complete_pc (b : Bool) : (s.complete b).pc = s.pc := rfl
@[simp] theorem State.complete_index (b : Bool) : (s.complete b).index = s.index := rfl
@[simp] theorem State.complete_sp (b : Bool) : (s.complete b).sp = s.sp := rfl
@[simp] theorem State.complete_stack (b : Bool) : (s.complete b).stack = s.stack := rfl
@[simp] theorem State.complete_dt (b : Bool) : (s.complete b).dt = s.dt := rfl
@[simp] theorem State.complete_st (b : Bool) : (s.complete b).st = s.st := rfl
@[simp] theorem State.complete_fb (b : Bool) : (s.complete b).fb = s.fb := rfl
@[simp] theorem State.complete_mem (b : Bool) : (s.complete b).mem = s.mem := rfl
@[simp] theorem State.complete_await (b : Bool) : (s.complete b).await = false := rfl
@[simp] theorem State.complete_fbChanged (b : Bool) : (s.complete b).fbChanged = b := rfl
@[simp] theorem State.complete_fault (b : Bool) : (s.complete b).fault = s.fault := rfl
@[simp] theorem State.complete_faultCause (b : Bool) : (s.complete b).faultCause = s.faultCause := rfl
@[simp] theorem State.complete_faultPc (b : Bool) : (s.complete b).faultPc = s.faultPc := rfl
@[simp] theorem State.complete_faultOp (b : Bool) : (s.complete b).faultOp = s.faultOp := rfl
@[simp] theorem State.complete_cfg (b : Bool) : (s.complete b).cfg = s.cfg := rfl
@[simp] theorem State.complete_inputs (b : Bool) : (s.complete b).inputs = s.inputs := rfl
@[simp] theorem State.complete_steps (b : Bool) : (s.complete b).steps = s.steps := rfl

@[simp] theorem State.suspend_v : (s.suspend).v = s.v := rfl
@[simp] theorem State.suspend_pc : (s.suspend).pc = s.fetchAddr := rfl
@[simp] theorem State.suspend_index : (s.suspend).index = s.index := rfl
@[simp] theorem State.suspend_sp : (s.suspend).sp = s.sp := rfl
@[simp] theorem State.suspend_stack : (s.suspend).stack = s.stack := rfl
@[simp] theorem State.suspend_dt : (s.suspend).dt = s.dt := rfl
@[simp] theorem State.suspend_st : (s.suspend).st = s.st := rfl
@[simp] theorem State.suspend_fb : (s.suspend).fb = s.fb := rfl
@[simp] theorem State.suspend_mem : (s.suspend).mem = s.mem := rfl
@[simp] theorem State.suspend_await : (s.suspend).await = true := rfl
@[simp] theorem State.suspend_fbChanged : (s.suspend).fbChanged = false := rfl
@[simp] theorem State.suspend_fault : (s.suspend).fault = s.fault := rfl
@[simp] theorem State.suspend_faultCause : (s.suspend).faultCause = s.faultCause := rfl
@[simp] theorem State.suspend_faultPc : (s.suspend).faultPc = s.faultPc := rfl
@[simp] theorem State.suspend_faultOp : (s.suspend).faultOp = s.faultOp := rfl
@[simp] theorem State.suspend_cfg : (s.suspend).cfg = s.cfg := rfl
@[simp] theorem State.suspend_inputs : (s.suspend).inputs = s.inputs := rfl
@[simp] theorem State.suspend_steps : (s.suspend).steps = s.steps := rfl

@[simp] theorem State.withBlit_v (b : Blit) : (s.withBlit b).v = s.v.set vf (flagByte b.hit) := rfl
@[simp] theorem State.withBlit_pc (b : Blit) : (s.withBlit b).pc = s.pc := rfl
@[simp] theorem State.withBlit_index (b : Blit) : (s.withBlit b).index = s.index := rfl
@[simp] theorem State.withBlit_sp (b : Blit) : (s.withBlit b).sp = s.sp := rfl
@[simp] theorem State.withBlit_stack (b : Blit) : (s.withBlit b).stack = s.stack := rfl
@[simp] theorem State.withBlit_dt (b : Blit) : (s.withBlit b).dt = s.dt := rfl
@[simp] theorem State.withBlit_st (b : Blit) : (s.withBlit b).st = s.st := rfl
@[simp] theorem State.withBlit_fb (b : Blit) : (s.withBlit b).fb = b.fb := rfl
@[simp] theorem State.withBlit_mem (b : Blit) : (s.withBlit b).mem = s.mem := rfl
@[simp] theorem State.withBlit_await (b : Blit) : (s.withBlit b).await = s.await := rfl
@[simp] theorem State.withBlit_fbChanged (b : Blit) : (s.withBlit b).fbChanged = s.fbChanged := rfl
@[simp] theorem State.withBlit_fault (b : Blit) : (s.withBlit b).fault = s.fault := rfl
@[simp] theorem State.withBlit_faultCause (b : Blit) : (s.withBlit b).faultCause = s.faultCause := rfl
@[simp] theorem State.withBlit_faultPc (b : Blit) : (s.withBlit b).faultPc = s.faultPc := rfl
@[simp] theorem State.withBlit_faultOp (b : Blit) : (s.withBlit b).faultOp = s.faultOp := rfl
@[simp] theorem State.withBlit_cfg (b : Blit) : (s.withBlit b).cfg = s.cfg := rfl
@[simp] theorem State.withBlit_inputs (b : Blit) : (s.withBlit b).inputs = s.inputs := rfl
@[simp] theorem State.withBlit_steps (b : Blit) : (s.withBlit b).steps = s.steps := rfl

@[simp] theorem State.writeWithFlag_v (x : RegIx) (r f : Byte) : (s.writeWithFlag x r f).v = (s.v.set x r).set vf f := rfl
@[simp] theorem State.writeWithFlag_pc (x : RegIx) (r f : Byte) : (s.writeWithFlag x r f).pc = s.pc := rfl
@[simp] theorem State.writeWithFlag_index (x : RegIx) (r f : Byte) : (s.writeWithFlag x r f).index = s.index := rfl
@[simp] theorem State.writeWithFlag_sp (x : RegIx) (r f : Byte) : (s.writeWithFlag x r f).sp = s.sp := rfl
@[simp] theorem State.writeWithFlag_stack (x : RegIx) (r f : Byte) : (s.writeWithFlag x r f).stack = s.stack := rfl
@[simp] theorem State.writeWithFlag_dt (x : RegIx) (r f : Byte) : (s.writeWithFlag x r f).dt = s.dt := rfl
@[simp] theorem State.writeWithFlag_st (x : RegIx) (r f : Byte) : (s.writeWithFlag x r f).st = s.st := rfl
@[simp] theorem State.writeWithFlag_fb (x : RegIx) (r f : Byte) : (s.writeWithFlag x r f).fb = s.fb := rfl
@[simp] theorem State.writeWithFlag_mem (x : RegIx) (r f : Byte) : (s.writeWithFlag x r f).mem = s.mem := rfl
@[simp] theorem State.writeWithFlag_await (x : RegIx) (r f : Byte) : (s.writeWithFlag x r f).await = s.await := rfl
@[simp] theorem State.writeWithFlag_fbChanged (x : RegIx) (r f : Byte) : (s.writeWithFlag x r f).fbChanged = s.fbChanged := rfl
@[simp] theorem State.writeWithFlag_fault (x : RegIx) (r f : Byte) : (s.writeWithFlag x r f).fault = s.fault := rfl
@[simp] theorem State.writeWithFlag_faultCause (x : RegIx) (r f : Byte) : (s.writeWithFlag x r f).faultCause = s.faultCause := rfl
@[simp] theorem State.writeWithFlag_faultPc (x : RegIx) (r f : Byte) : (s.writeWithFlag x r f).faultPc = s.faultPc := rfl
@[simp] theorem State.writeWithFlag_faultOp (x : RegIx) (r f : Byte) : (s.writeWithFlag x r f).faultOp = s.faultOp := rfl
@[simp] theorem State.writeWithFlag_cfg (x : RegIx) (r f : Byte) : (s.writeWithFlag x r f).cfg = s.cfg := rfl
@[simp] theorem State.writeWithFlag_inputs (x : RegIx) (r f : Byte) : (s.writeWithFlag x r f).inputs = s.inputs := rfl
@[simp] theorem State.writeWithFlag_steps (x : RegIx) (r f : Byte) : (s.writeWithFlag x r f).steps = s.steps := rfl

@[simp] theorem State.tick_v : (s.tick).v = s.v := rfl
@[simp] theorem State.tick_pc : (s.tick).pc = s.pc := rfl
@[simp] theorem State.tick_index : (s.tick).index = s.index := rfl
@[simp] theorem State.tick_sp : (s.tick).sp = s.sp := rfl
@[simp] theorem State.tick_stack : (s.tick).stack = s.stack := rfl
@[simp] theorem State.tick_dt : (s.tick).dt = tickDown s.dt := rfl
@[simp] theorem State.tick_st : (s.tick).st = tickDown s.st := rfl
@[simp] theorem State.tick_fb : (s.tick).fb = s.fb := rfl
@[simp] theorem State.tick_mem : (s.tick).mem = s.mem := rfl
@[simp] theorem State.tick_await : (s.tick).await = s.await := rfl
@[simp] theorem State.tick_fbChanged : (s.tick).fbChanged = s.fbChanged := rfl
@[simp] theorem State.tick_fault : (s.tick).fault = s.fault := rfl
@[simp] theorem State.tick_faultCause : (s.tick).faultCause = s.faultCause := rfl
@[simp] theorem State.tick_faultPc : (s.tick).faultPc = s.faultPc := rfl
@[simp] theorem State.tick_faultOp : (s.tick).faultOp = s.faultOp := rfl
@[simp] theorem State.tick_cfg : (s.tick).cfg = s.cfg := rfl
@[simp] theorem State.tick_inputs : (s.tick).inputs = s.inputs := rfl
@[simp] theorem State.tick_steps : (s.tick).steps = s.steps := rfl

@[simp] theorem State.ticks_v (n : Nat) : (s.ticks n).v = s.v := rfl
@[simp] theorem State.ticks_pc (n : Nat) : (s.ticks n).pc = s.pc := rfl
@[simp] theorem State.ticks_index (n : Nat) : (s.ticks n).index = s.index := rfl
@[simp] theorem State.ticks_sp (n : Nat) : (s.ticks n).sp = s.sp := rfl
@[simp] theorem State.ticks_stack (n : Nat) : (s.ticks n).stack = s.stack := rfl
@[simp] theorem State.ticks_dt (n : Nat) : (s.ticks n).dt = tickDownBy n s.dt := rfl
@[simp] theorem State.ticks_st (n : Nat) : (s.ticks n).st = tickDownBy n s.st := rfl
@[simp] theorem State.ticks_fb (n : Nat) : (s.ticks n).fb = s.fb := rfl
@[simp] theorem State.ticks_mem (n : Nat) : (s.ticks n).mem = s.mem := rfl
@[simp] theorem State.ticks_await (n : Nat) : (s.ticks n).await = s.await := rfl
@[simp] theorem State.ticks_fbChanged (n : Nat) : (s.ticks n).fbChanged = s.fbChanged := rfl
@[simp] theorem State.ticks_fault (n : Nat) : (s.ticks n).fault = s.fault := rfl
@[simp] theorem State.ticks_faultCause (n : Nat) : (s.ticks n).faultCause = s.faultCause := rfl
@[simp] theorem State.ticks_faultPc (n : Nat) : (s.ticks n).faultPc = s.faultPc := rfl
@[simp] theorem State.ticks_faultOp (n : Nat) : (s.ticks n).faultOp = s.faultOp := rfl
@[simp] theorem State.ticks_cfg (n : Nat) : (s.ticks n).cfg = s.cfg := rfl
@[simp] theorem State.ticks_inputs (n : Nat) : (s.ticks n).inputs = s.inputs := rfl
@[simp] theorem State.ticks_steps (n : Nat) : (s.ticks n).steps = s.steps := rfl

@[simp] theorem State.endStep_v : (s.endStep).v = s.v := rfl
@[simp] theorem State.endStep_pc : (s.endStep).pc = s.pc := rfl
@[simp] theorem State.endStep_index : (s.endStep).index = s.index := rfl
@[simp] theorem State.endStep_sp : (s.endStep).sp = s.sp := rfl
@[simp] theorem State.endStep_stack : (s.endStep).stack = s.stack := rfl
@[simp] theorem State.endStep_dt : (s.endStep).dt = tickDownBy s.input.ticks s.dt := rfl
@[simp] theorem State.endStep_st : (s.endStep).st = tickDownBy s.input.ticks s.st := rfl
@[simp] theorem State.endStep_fb : (s.endStep).fb = s.fb := rfl
@[simp] theorem State.endStep_mem : (s.endStep).mem = s.mem := rfl
@[simp] theorem State.endStep_await : (s.endStep).await = s.await := rfl
@[simp] theorem State.endStep_fbChanged : (s.endStep).fbChanged = s.fbChanged := rfl
@[simp] theorem State.endStep_fault : (s.endStep).fault = s.fault := rfl
@[simp] theorem State.endStep_faultCause : (s.endStep).faultCause = s.faultCause := rfl
@[simp] theorem State.endStep_faultPc : (s.endStep).faultPc = s.faultPc := rfl
@[simp] theorem State.endStep_faultOp : (s.endStep).faultOp = s.faultOp := rfl
@[simp] theorem State.endStep_cfg : (s.endStep).cfg = s.cfg := rfl
@[simp] theorem State.endStep_inputs : (s.endStep).inputs = s.inputs.tail := rfl
@[simp] theorem State.endStep_steps : (s.endStep).steps = s.steps + 1 := rfl

@[simp] theorem State.rst_v : (s.rst).v = State.reset.v := rfl
@[simp] theorem State.rst_pc : (s.rst).pc = State.reset.pc := rfl
@[simp] theorem State.rst_index : (s.rst).index = State.reset.index := rfl
@[simp] theorem State.rst_sp : (s.rst).sp = State.reset.sp := rfl
@[simp] theorem State.rst_stack : (s.rst).stack = State.reset.stack := rfl
@[simp] theorem State.rst_dt : (s.rst).dt = State.reset.dt := rfl
@[simp] theorem State.rst_st : (s.rst).st = State.reset.st := rfl
@[simp] theorem State.rst_fb : (s.rst).fb = State.reset.fb := rfl
@[simp] theorem State.rst_mem : (s.rst).mem = State.reset.mem := rfl
@[simp] theorem State.rst_await : (s.rst).await = State.reset.await := rfl
@[simp] theorem State.rst_fbChanged : (s.rst).fbChanged = State.reset.fbChanged := rfl
@[simp] theorem State.rst_fault : (s.rst).fault = State.reset.fault := rfl
@[simp] theorem State.rst_faultCause : (s.rst).faultCause = State.reset.faultCause := rfl
@[simp] theorem State.rst_faultPc : (s.rst).faultPc = State.reset.faultPc := rfl
@[simp] theorem State.rst_faultOp : (s.rst).faultOp = State.reset.faultOp := rfl
@[simp] theorem State.rst_cfg : (s.rst).cfg = s.cfg := rfl
@[simp] theorem State.rst_inputs : (s.rst).inputs = s.inputs := rfl
@[simp] theorem State.rst_steps : (s.rst).steps = s.steps := rfl

theorem State.skipIf_pc (c : Bool) : (s.skipIf c).pc = if c = true then s.pc + 2 else s.pc := by cases c <;> rfl
@[simp] theorem State.skipIf_v (c : Bool) : (s.skipIf c).v = s.v := by cases c <;> rfl
@[simp] theorem State.skipIf_index (c : Bool) : (s.skipIf c).index = s.index := by cases c <;> rfl
@[simp] theorem State.skipIf_sp (c : Bool) : (s.skipIf c).sp = s.sp := by cases c <;> rfl
@[simp] theorem State.skipIf_stack (c : Bool) : (s.skipIf c).stack = s.stack := by cases c <;> rfl
@[simp] theorem State.skipIf_dt (c : Bool) : (s.skipIf c).dt = s.dt := by cases c <;> rfl
@[simp] theorem State.skipIf_st (c : Bool) : (s.skipIf c).st = s.st := by cases c <;> rfl
@[simp] theorem State.skipIf_fb (c : Bool) : (s.skipIf c).fb = s.fb := by cases c <;> rfl
@[simp] theorem State.skipIf_mem (c : Bool) : (s.skipIf c).mem = s.mem := by cases c <;> rfl
@[simp] theorem State.skipIf_await (c : Bool) : (s.skipIf c).await = s.await := by cases c <;> rfl
@[simp] theorem State.skipIf_fbChanged (c : Bool) : (s.skipIf c).fbChanged = s.fbChanged := by cases c <;> rfl
@[simp] theorem State.skipIf_fault (c : Bool) : (s.skipIf c).fault = s.fault := by cases c <;> rfl
@[simp] theorem State.skipIf_faultCause (c : Bool) : (s.skipIf c).faultCause = s.faultCause := by cases c <;> rfl
@[simp] theorem State.skipIf_faultPc (c : Bool) : (s.skipIf c).faultPc = s.faultPc := by cases c <;> rfl
@[simp] theorem State.skipIf_faultOp (c : Bool) : (s.skipIf c).faultOp = s.faultOp := by cases c <;> rfl
@[simp] theorem State.skipIf_cfg (c : Bool) : (s.skipIf c).cfg = s.cfg := by cases c <;> rfl
@[simp] theorem State.skipIf_inputs (c : Bool) : (s.skipIf c).inputs = s.inputs := by cases c <;> rfl
@[simp] theorem State.skipIf_steps (c : Bool) : (s.skipIf c).steps = s.steps := by cases c <;> rfl

/-- A block write changes memory and nothing else. -/
theorem State.writeBytes_eq (l : List (Addr × Byte)) : s.writeBytes l = { s with mem := (s.writeBytes l).mem } := by
  induction l generalizing s with
  | nil => rfl
  | cons e rest ih => obtain ⟨k, c⟩ := e; exact ih _

@[simp] theorem State.writeBytes_v (l : List (Addr × Byte)) : (s.writeBytes l).v = s.v := by rw [State.writeBytes_eq]
@[simp] theorem State.writeBytes_pc (l : List (Addr × Byte)) : (s.writeBytes l).pc = s.pc := by rw [State.writeBytes_eq]
@[simp] theorem State.writeBytes_index (l : List (Addr × Byte)) : (s.writeBytes l).index = s.index := by rw [State.writeBytes_eq]
@[simp] theorem State.writeBytes_sp (l : List (Addr × Byte)) : (s.writeBytes l).sp = s.sp := by rw [State.writeBytes_eq]
@[simp] theorem State.writeBytes_stack (l : List (Addr × Byte)) : (s.writeBytes l).stack = s.stack := by rw [State.writeBytes_eq]
@[simp] theorem State.writeBytes_dt (l : List (Addr × Byte)) : (s.writeBytes l).dt = s.dt := by rw [State.writeBytes_eq]
@[simp] theorem State.writeBytes_st (l : List (Addr × Byte)) : (s.writeBytes l).st = s.st := by rw [State.writeBytes_eq]
@[simp] theorem State.writeBytes_fb (l : List (Addr × Byte)) : (s.writeBytes l).fb = s.fb := by rw [State.writeBytes_eq]
@[simp] theorem State.writeBytes_await (l : List (Addr × Byte)) : (s.writeBytes l).await = s.await := by rw [State.writeBytes_eq]
@[simp] theorem State.writeBytes_fbChanged (l : List (Addr × Byte)) : (s.writeBytes l).fbChanged = s.fbChanged := by rw [State.writeBytes_eq]
@[simp] theorem State.writeBytes_fault (l : List (Addr × Byte)) : (s.writeBytes l).fault = s.fault := by rw [State.writeBytes_eq]
@[simp] theorem State.writeBytes_faultCause (l : List (Addr × Byte)) : (s.writeBytes l).faultCause = s.faultCause := by rw [State.writeBytes_eq]
@[simp] theorem State.writeBytes_faultPc (l : List (Addr × Byte)) : (s.writeBytes l).faultPc = s.faultPc := by rw [State.writeBytes_eq]
@[simp] theorem State.writeBytes_faultOp (l : List (Addr × Byte)) : (s.writeBytes l).faultOp = s.faultOp := by rw [State.writeBytes_eq]
@[simp] theorem State.writeBytes_cfg (l : List (Addr × Byte)) : (s.writeBytes l).cfg = s.cfg := by rw [State.writeBytes_eq]
@[simp] theorem State.writeBytes_inputs (l : List (Addr × Byte)) : (s.writeBytes l).inputs = s.inputs := by rw [State.writeBytes_eq]
@[simp] theorem State.writeBytes_steps (l : List (Addr × Byte)) : (s.writeBytes l).steps = s.steps := by rw [State.writeBytes_eq]

end Sys2Proof.Machine
end

