-- ==== Sys2Proof/Laws/Memory.lean ====
section
/-! SUPPORT. Memory: read after write, and every memory operation keeps the canonical form. -/

namespace Sys2Proof.Machine

theorem memFind_memErase (m : Memory) (a a' : Nat) :
    memFind (memErase m a) a' = if a' = a then none else memFind m a' := by
  induction m with
  | nil => simp [memErase, memFind]
  | cons e rest ih =>
    obtain ⟨k, b⟩ := e
    by_cases hk : k = a
    · subst hk
      by_cases ha : a' = k
      · subst ha; simpa [memErase] using ih
      · simp [memErase, memFind, ih, ha, Ne.symm ha]
    · by_cases ha : a' = a
      · subst ha; simp [memErase, memFind, hk, ih]
      · simp [memErase, memFind, hk, ih, ha]

theorem memFind_memInsert (m : Memory) (a a' : Nat) (b : Byte) :
    memFind (memInsert m a b) a' = if a' = a then some b else memFind m a' := by
  induction m with
  | nil => simp [memInsert, memFind, eq_comm]
  | cons e rest ih =>
    obtain ⟨k, c⟩ := e
    unfold memInsert
    split
    · simp [memFind, eq_comm]
    · split
      · rename_i h; subst h
        by_cases ha : a' = a
        · simp [memFind, ha]
        · simp [memFind, ha, Ne.symm ha]
      · rename_i h; by_cases hk : k = a'
        · subst hk; simp [memFind, Ne.symm h]
        · simp [memFind, hk, ih]

/-- Read after write (R70): the byte written at its own address, every other byte as before. -/
theorem memRead_memWrite (c : Config) (m : Memory) (a a' : Nat) (b : Byte) :
    memRead c (memWrite c m a b) a' = if a' = a then b else memRead c m a' := by
  unfold memRead memWrite
  split
  · rename_i h; rw [memFind_memErase]; by_cases ha : a' = a <;> simp [ha, h]
  · rw [memFind_memInsert]; by_cases ha : a' = a <;> simp [ha]

theorem State.readByte_writeByte (s : State) (a a' : Addr) (b : Byte) :
    (s.writeByte a b).readByte a' = if a' = a then b else s.readByte a' := by
  simp [State.readByte, memRead_memWrite, BitVec.toNat_inj]

/-- A byte that is no target of a block write reads as before. -/
theorem State.readByte_writeBytes_other (s : State) (l : List (Addr × Byte)) (a : Addr) (h : a ∉ l.map Prod.fst) :
    (s.writeBytes l).readByte a = s.readByte a := by
  induction l generalizing s with
  | nil => rfl
  | cons e rest ih =>
    obtain ⟨k, b⟩ := e
    simp only [List.map_cons, List.mem_cons, not_or] at h
    simp [State.writeBytes, ih _ h.2, State.readByte_writeByte, h.1]

/-- A block write to distinct addresses puts each byte at its address. -/
theorem State.readByte_writeBytes (s : State) (l : List (Addr × Byte)) (hl : (l.map Prod.fst).Nodup) (a : Addr) (b : Byte)
    (h : (a, b) ∈ l) : (s.writeBytes l).readByte a = b := by
  induction l generalizing s with
  | nil => simp at h
  | cons e rest ih =>
    obtain ⟨k, c⟩ := e
    simp only [List.map_cons, List.nodup_cons] at hl
    rcases List.mem_cons.mp h with h | h
    · simp only [Prod.mk.injEq] at h
      obtain ⟨rfl, rfl⟩ := h
      simp [State.writeBytes, State.readByte_writeBytes_other _ _ _ hl.1, State.readByte_writeByte]
    · exact ih _ hl.2 h

theorem memWfFrom_mono (c : Config) (m : Memory) {lo hi : Nat} (h : lo ≤ hi) (hm : memWfFrom c hi m = true) :
    memWfFrom c lo m = true := by
  cases m with
  | nil => rfl
  | cons e rest => obtain ⟨k, b⟩ := e; simp only [memWfFrom, Bool.and_eq_true, decide_eq_true_eq] at hm ⊢; exact ⟨⟨⟨by omega, hm.1.1.2⟩, hm.1.2⟩, hm.2⟩

theorem memWfFrom_memErase (c : Config) (m : Memory) (a lo : Nat) (h : memWfFrom c lo m = true) :
    memWfFrom c lo (memErase m a) = true := by
  induction m generalizing lo with
  | nil => rfl
  | cons e rest ih =>
    obtain ⟨k, b⟩ := e
    simp [memWfFrom] at h
    by_cases hk : k = a
    · simp only [memErase, hk, if_true]
      exact ih lo (memWfFrom_mono c rest (by omega) h.2)
    · simp only [memErase, hk, if_false]
      simp [memWfFrom, h, ih (k + 1) h.2]

theorem memWfFrom_memInsert (c : Config) (m : Memory) (a lo : Nat) (b : Byte) (h : memWfFrom c lo m = true)
    (hlo : lo ≤ a) (ha : a < 4096) (hb : b ≠ memDefault c a) : memWfFrom c lo (memInsert m a b) = true := by
  induction m generalizing lo with
  | nil => simp [memInsert, memWfFrom, hlo, ha, hb]
  | cons e rest ih =>
    obtain ⟨k, d⟩ := e
    simp [memWfFrom] at h
    unfold memInsert
    split
    · simp [memWfFrom, hlo, ha, hb, h]; omega
    · split
      · rename_i h2; subst h2; simp [memWfFrom, hb, h]
      · simp [memWfFrom, h, ih (k + 1) h.2 (by omega)]

/-- Every write keeps the canonical form. -/
theorem memWrite_wf (c : Config) (m : Memory) (a : Nat) (b : Byte) (h : Memory.wf c m = true) (ha : a < 4096) :
    Memory.wf c (memWrite c m a b) = true := by
  unfold Memory.wf memWrite at *
  split
  · exact memWfFrom_memErase c m a 0 h
  · rename_i hb; exact memWfFrom_memInsert c m a 0 b h (Nat.zero_le _) ha hb

theorem State.writeByte_wf (s : State) (a : Addr) (b : Byte) (h : Memory.wf s.cfg s.mem = true) :
    Memory.wf (s.writeByte a b).cfg (s.writeByte a b).mem = true :=
  memWrite_wf _ _ _ _ h a.isLt

theorem State.writeBytes_wf (s : State) (l : List (Addr × Byte)) (h : Memory.wf s.cfg s.mem = true) :
    Memory.wf (s.writeBytes l).cfg (s.writeBytes l).mem = true := by
  induction l generalizing s with
  | nil => exact h
  | cons e rest ih => obtain ⟨k, b⟩ := e; exact ih _ (State.writeByte_wf s k b h)

theorem State.loadFrom_wf (s : State) (a : Addr) (l : List Byte) (h : Memory.wf s.cfg s.mem = true) :
    Memory.wf (s.loadFrom a l).cfg (s.loadFrom a l).mem = true := by
  induction l generalizing s a with
  | nil => exact h
  | cons b rest ih => exact ih _ _ (State.writeByte_wf s a b h)

/-- Reset memory is in canonical form. -/
theorem reset_mem_wf : Memory.wf State.reset.cfg State.reset.mem = true := rfl

/-- An unlisted byte reads as the reset contents (R41). -/
theorem readByte_of_mem_nil (s : State) (h : s.mem = []) (a : Addr) : s.readByte a = memDefault s.cfg a.toNat := by
  simp [State.readByte, memRead, h, memFind]

end Sys2Proof.Machine
end

