-- ==== Sys2Proof/Laws/Operands.lean ====
section
/-! SUPPORT. What the operand forms and the register and memory accessors give. -/

namespace Sys2Proof.Machine

theorem State.readV_writeV (s : State) (r r' : RegIx) (b : Byte) :
    (s.writeV r b).readV r' = if r' = r then b else s.readV r' := by
  by_cases h : r' = r
  · subst h; simp [State.readV]
  · have : r.val ≠ r'.val := fun h' => h (Fin.ext h'.symm)
    simp [State.readV, h, this]

/-- The flag is written last: VF ends as the flag whatever x is (D5). -/
theorem State.readV_writeWithFlag (s : State) (x r : RegIx) (b f : Byte) :
    (s.writeWithFlag x b f).readV r = if r = vf then f else if r = x then b else s.readV r := by
  simp [State.writeWithFlag, State.readV_writeV]

theorem State.readV_writeRegs (s : State) (bs : List Byte) (r : RegIx) :
    (s.writeRegs bs).readV r = (bs[r.val]?).getD (s.readV r) := by
  simp [State.readV, State.writeRegs]

@[simp] theorem State.readV_advance (s : State) (r : RegIx) : s.advance.readV r = s.readV r := rfl
@[simp] theorem State.readV_skip (s : State) (r : RegIx) : s.skip.readV r = s.readV r := rfl
@[simp] theorem State.readV_jump (s : State) (a : Addr) (r : RegIx) : (s.jump a).readV r = s.readV r := rfl
@[simp] theorem State.readV_push (s : State) (w : Word) (r : RegIx) : (s.push w).readV r = s.readV r := rfl
@[simp] theorem State.readV_popPc (s : State) (r : RegIx) : s.popPc.readV r = s.readV r := rfl
@[simp] theorem State.readV_complete (s : State) (b : Bool) (r : RegIx) : (s.complete b).readV r = s.readV r := rfl
@[simp] theorem State.readV_suspend (s : State) (r : RegIx) : s.suspend.readV r = s.readV r := rfl
@[simp] theorem State.readV_takeFault (s : State) (c : FaultCause) (r : RegIx) :
    (s.takeFault c).readV r = s.readV r := rfl
@[simp] theorem State.readV_writeByte (s : State) (a : Addr) (b : Byte) (r : RegIx) :
    (s.writeByte a b).readV r = s.readV r := rfl
@[simp] theorem State.readV_endStep (s : State) (r : RegIx) : s.endStep.readV r = s.readV r := rfl

@[simp] theorem State.readByte_advance (s : State) (a : Addr) : s.advance.readByte a = s.readByte a := rfl
@[simp] theorem State.readByte_skip (s : State) (a : Addr) : s.skip.readByte a = s.readByte a := rfl
@[simp] theorem State.readByte_jump (s : State) (t a : Addr) : (s.jump t).readByte a = s.readByte a := rfl
@[simp] theorem State.readByte_push (s : State) (w : Word) (a : Addr) : (s.push w).readByte a = s.readByte a := rfl
@[simp] theorem State.readByte_popPc (s : State) (a : Addr) : s.popPc.readByte a = s.readByte a := rfl
@[simp] theorem State.readByte_complete (s : State) (b : Bool) (a : Addr) :
    (s.complete b).readByte a = s.readByte a := rfl
@[simp] theorem State.readByte_suspend (s : State) (a : Addr) : s.suspend.readByte a = s.readByte a := rfl
@[simp] theorem State.readByte_takeFault (s : State) (c : FaultCause) (a : Addr) :
    (s.takeFault c).readByte a = s.readByte a := rfl
@[simp] theorem State.readByte_writeV (s : State) (r : RegIx) (b : Byte) (a : Addr) :
    (s.writeV r b).readByte a = s.readByte a := rfl
@[simp] theorem State.readByte_writeWithFlag (s : State) (x : RegIx) (b f : Byte) (a : Addr) :
    (s.writeWithFlag x b f).readByte a = s.readByte a := rfl
@[simp] theorem State.readByte_writeRegs (s : State) (bs : List Byte) (a : Addr) :
    (s.writeRegs bs).readByte a = s.readByte a := rfl
@[simp] theorem State.readByte_withBlit (s : State) (b : Blit) (a : Addr) :
    (s.withBlit b).readByte a = s.readByte a := rfl
@[simp] theorem State.readByte_endStep (s : State) (a : Addr) : s.endStep.readByte a = s.readByte a := rfl

@[simp] theorem State.input_advance (s : State) : s.advance.input = s.input := rfl
@[simp] theorem State.keys_advance (s : State) : s.advance.keys = s.keys := rfl
@[simp] theorem State.rnd_advance (s : State) : s.advance.rnd = s.rnd := rfl
@[simp] theorem State.block_advance (s : State) (n : Nat) : s.advance.block n = s.block n := rfl
@[simp] theorem State.regsTo_advance (s : State) (x : RegIx) : s.advance.regsTo x = s.regsTo x := rfl

/-- `EA` in one line: refused only under `fault` with a sum above 0xFFF, else the sum modulo 4096 (R66). -/
theorem effAddr_eq (mode : AddrOverflow) (b : Addr) (k : Nat) :
    effAddr mode b k = if mode = .wrap ∨ b.toNat + k ≤ 0xFFF then some (BitVec.ofNat 12 (b.toNat + k)) else none := by
  unfold effAddr
  cases mode <;> by_cases h : b.toNat + k ≤ 0xFFF <;> simp [h]

theorem effAddrs_eq (mode : AddrOverflow) (b : Addr) (ks : List Nat) :
    effAddrs mode b ks = if mode = .wrap ∨ ∀ k ∈ ks, b.toNat + k ≤ 0xFFF
      then some (ks.map fun k => BitVec.ofNat 12 (b.toNat + k)) else none := by
  induction ks with
  | nil => simp [effAddrs]
  | cons k ks ih =>
    simp only [effAddrs, effAddr_eq, ih]
    cases mode with
    | wrap => simp
    | fault =>
      by_cases h1 : b.toNat + k ≤ 0xFFF
      · by_cases h2 : ∀ j ∈ ks, b.toNat + j ≤ 0xFFF
        · simp only [h1, reduceCtorEq, false_or, List.forall_mem_cons, true_and, if_pos h2, List.map_cons, if_true]
        · simp only [h1, reduceCtorEq, false_or, List.forall_mem_cons, true_and, if_neg h2, if_true]
      · simp [h1]

/-- A block's addresses: `EA(I, 0)` to `EA(I, n - 1)` when the block fits, else none (R253). -/
theorem State.block_eq (s : State) (n : Nat) :
    s.block n = if s.BlockFits n then some ((List.range n).map fun k => BitVec.ofNat 12 (s.index.toNat + k)) else none := by
  have h : (∀ k ∈ List.range n, s.index.toNat + k ≤ 0xFFF) ↔ s.index.toNat + n ≤ 0x1000 := by
    have := s.index.isLt
    constructor
    · intro h
      cases n with
      | zero => omega
      | succ n => have := h n (by simp); omega
    · intro h k hk; have := List.mem_range.mp hk; omega
  simp only [State.block, effAddrs_eq, h, State.BlockFits]

theorem State.block_fits (s : State) (n : Nat) (h : s.BlockFits n) :
    s.block n = some ((List.range n).map fun k => BitVec.ofNat 12 (s.index.toNat + k)) := by
  rw [State.block_eq, if_pos h]

theorem State.block_none (s : State) (n : Nat) (h : ¬ s.BlockFits n) : s.block n = none := by
  rw [State.block_eq, if_neg h]

/-- The addresses a claim names are the ones a memory instruction uses. -/
theorem State.span_eq (s : State) (n : Nat) (h : s.BlockFits n) :
    s.span n = (List.range n).map fun k => BitVec.ofNat 12 (s.index.toNat + k) := by
  have hl := s.index.isLt
  have : ∀ k ∈ List.range n, effAddr s.cfg.addrOverflow s.index k = some (BitVec.ofNat 12 (s.index.toNat + k)) := by
    intro k hk
    have hk := List.mem_range.mp hk
    rw [effAddr_eq, if_pos]
    rcases h with h | h
    · exact .inl h
    · right; omega
  rw [State.span, List.filterMap_congr this]
  exact congrFun (List.filterMap_eq_map (f := fun k => BitVec.ofNat 12 (s.index.toNat + k))) _

/-- The addresses of a block of at most 16 bytes are distinct. -/
theorem block_nodup (b n : Nat) (h : n ≤ 4096) : ((List.range n).map fun k => BitVec.ofNat 12 (b + k)).Nodup := by
  refine List.Nodup.map_on ?_ List.nodup_range
  intro x hx y hy hxy
  have hx := List.mem_range.mp hx
  have hy := List.mem_range.mp hy
  have := congrArg BitVec.toNat hxy
  simp only [BitVec.toNat_ofNat] at this
  omega

theorem State.length_regsTo (s : State) (x : RegIx) : (s.regsTo x).length = x.val + 1 := by
  simp [State.regsTo]

theorem State.getElem_regsTo (s : State) (x k : RegIx) (h : k.val < (s.regsTo x).length) :
    (s.regsTo x)[k.val] = s.readV k := by
  simp [State.regsTo, State.readV]

/-- No key pressed is an empty snapshot. -/
theorem lowestKey_eq_none (keys : BitVec 16) : lowestKey keys = none ↔ keys = 0 := by
  unfold lowestKey
  rw [List.find?_eq_none]
  constructor
  · intro h
    apply BitVec.eq_of_getLsbD_eq
    intro i hi
    have := h ⟨i, hi⟩ (List.mem_finRange _)
    simpa using this
  · rintro rfl k _; simp

/-- The key loaded is the lowest-indexed pressed key (R205). -/
theorem lowestKey_eq_some (keys : BitVec 16) (k : RegIx) (h : lowestKey keys = some k) :
    keys.getLsbD k = true ∧ ∀ j : RegIx, j < k → keys.getLsbD j = false := by
  unfold lowestKey at h
  obtain ⟨hk, l1, l2, hl, hlt⟩ := List.find?_eq_some_iff_append.mp h
  refine ⟨hk, fun j hj => ?_⟩
  have hs : (l1 ++ k :: l2).Pairwise (· < ·) := hl ▸ List.pairwise_lt_finRange 16
  have hm : j ∈ l1 ++ k :: l2 := hl ▸ List.mem_finRange j
  rcases List.mem_append.mp hm with hm | hm
  · simpa using hlt j hm
  · rcases List.mem_cons.mp hm with hm | hm
    · exact absurd hm (ne_of_lt hj)
    · have := List.pairwise_append.mp hs |>.2.1
      have := List.rel_of_pairwise_cons this hm
      exact absurd hj (not_lt_of_gt this)

/-- The fetch address is below 0xFFE (R102, R103). -/
theorem State.fetchAddr_lt (s : State) : s.fetchAddr.toNat < 0xFFE := by
  unfold State.fetchAddr
  split
  · decide
  · omega

end Sys2Proof.Machine
end

