-- ==== Sys2Proof/Laws/Display.lean ====
section
/-! SUPPORT. The blit pixel by pixel: the loops of DRW toggle exactly the pixels under set sprite bits, and the collision
flag says whether one of them was on (R181, R183, R184, R188). -/

namespace Sys2Proof.Machine

/-- The sprite's bit over frame row `r`, column `c`, for rows drawn from frame row `py` and column `ox` on. -/
def spriteAt (rows : List Byte) (py ox r c : Nat) : Bool :=
  decide (py ≤ r ∧ ox ≤ c ∧ c < ox + 8) && ((rows[r - py]?).getD 0).getLsbD (7 - (c - ox))

theorem pixelAt_blankFrame (r c : Nat) : pixelAt blankFrame r c = false := by
  unfold pixelAt blankFrame
  split <;> simp

theorem pixelAt_togglePixel (fb : Frame) (py px r c : Nat) (hr : py < 32) (hc : px < 64) :
    pixelAt (togglePixel fb py px) r c = (pixelAt fb r c ^^ decide (r = py ∧ c = px)) := by
  unfold pixelAt togglePixel
  by_cases h : r < 32 ∧ c < 64
  · by_cases h1 : py = r
    · subst h1
      by_cases h2 : px = c
      · subst h2; simp [h]
      · simp [h, hc, h2, Ne.symm h2]
    · simp [h, hr, hc, h1, Ne.symm h1]
  · have : ¬ (r = py ∧ c = px) := by omega
    simp [h, this]

theorem pixelAt_out (fb : Frame) (r c : Nat) (h : ¬ (r < 32 ∧ c < 64)) : pixelAt fb r c = false := by
  simp [pixelAt, h]

theorem plotBit_pixel (py px : Nat) (bit : Bool) (b : Blit) (r c : Nat) (hr : r < 32) (hc : c < 64) :
    pixelAt (plotBit py px bit b).fb r c = (pixelAt b.fb r c ^^ (bit && decide (r = py ∧ c = px))) := by
  unfold plotBit
  split
  · have : ¬ (r = py ∧ c = px) := by omega
    simp [this]
  · split
    · have : ¬ (r = py ∧ c = px) := by omega
      simp [this]
    · cases bit
      · simp
      · simp [pixelAt_togglePixel _ py px r c (by omega) (by omega)]

theorem plotBit_hit (py px : Nat) (bit : Bool) (b : Blit) :
    (plotBit py px bit b).hit = (b.hit || (bit && pixelAt b.fb py px)) := by
  unfold plotBit
  split
  · simp [pixelAt_out b.fb py px (by omega)]
  · split
    · simp [pixelAt_out b.fb py px (by omega)]
    · cases bit <;> simp

theorem plotRow_pixel (py ox : Nat) (row : Byte) (cs : List Nat) (hcs : cs.Nodup) (b : Blit) (r c : Nat) (hr : r < 32)
    (hc : c < 64) :
    pixelAt (plotRow py ox row cs b).fb r c
      = (pixelAt b.fb r c ^^ decide (r = py ∧ ∃ j ∈ cs, c = ox + j ∧ row.getLsbD (7 - j) = true)) := by
  induction cs generalizing b with
  | nil => simp [plotRow]
  | cons j cs ih =>
    rw [List.nodup_cons] at hcs
    rw [plotRow, ih hcs.2, plotBit_pixel _ _ _ _ r c hr hc]
    by_cases h : r = py ∧ c = ox + j
    · obtain ⟨rfl, rfl⟩ := h
      have hn : ¬ ∃ i ∈ cs, ox + j = ox + i ∧ row.getLsbD (7 - i) = true := by
        rintro ⟨i, hi, hij, -⟩
        have : i = j := by omega
        exact hcs.1 (this ▸ hi)
      cases hb : row.getLsbD (7 - j)
      · have : ¬ ∃ i ∈ j :: cs, ox + j = ox + i ∧ row.getLsbD (7 - i) = true := by
          rintro ⟨i, hi, hij, hi'⟩
          have hij : i = j := by omega
          subst hij
          rw [hb] at hi'; exact absurd hi' (by decide)
        have e1 := decide_eq_false (p := r = r ∧ ∃ i ∈ cs, ox + j = ox + i ∧ row.getLsbD (7 - i) = true) fun h => hn h.2
        have e2 := decide_eq_false (p := r = r ∧ ∃ i ∈ j :: cs, ox + j = ox + i ∧ row.getLsbD (7 - i) = true)
          fun h => this h.2
        rw [e1, e2, Bool.false_and, Bool.xor_false, Bool.xor_false]
      · have : ∃ i ∈ j :: cs, ox + j = ox + i ∧ row.getLsbD (7 - i) = true := ⟨j, by simp, rfl, hb⟩
        have e1 := decide_eq_false (p := r = r ∧ ∃ i ∈ cs, ox + j = ox + i ∧ row.getLsbD (7 - i) = true) fun h => hn h.2
        have e2 := decide_eq_true (p := r = r ∧ ∃ i ∈ j :: cs, ox + j = ox + i ∧ row.getLsbD (7 - i) = true) ⟨rfl, this⟩
        rw [e1, e2, decide_eq_true ⟨rfl, rfl⟩, Bool.and_true, Bool.xor_false]
    · rw [decide_eq_false h, Bool.and_false, Bool.xor_false]
      congr 2
      apply propext
      constructor
      · rintro ⟨h1, i, hi, h2⟩; exact ⟨h1, i, List.mem_cons_of_mem _ hi, h2⟩
      · rintro ⟨h1, i, hi, h2, h3⟩
        rcases List.mem_cons.mp hi with hi | hi
        · subst hi; exact absurd ⟨h1, h2⟩ h
        · exact ⟨h1, i, hi, h2, h3⟩

theorem plotRow_hit (py ox : Nat) (row : Byte) (cs : List Nat) (hcs : cs.Nodup) (b : Blit) :
    (plotRow py ox row cs b).hit = true
      ↔ b.hit = true ∨ ∃ j ∈ cs, row.getLsbD (7 - j) = true ∧ pixelAt b.fb py (ox + j) = true := by
  induction cs generalizing b with
  | nil => simp [plotRow]
  | cons j cs ih =>
    rw [List.nodup_cons] at hcs
    rw [plotRow, ih hcs.2, plotBit_hit]
    have hsame : ∀ i ∈ cs, pixelAt (plotBit py (ox + j) (row.getLsbD (7 - j)) b).fb py (ox + i) = pixelAt b.fb py (ox + i) := by
      intro i hi
      by_cases hin : py < 32 ∧ ox + i < 64
      · rw [plotBit_pixel _ _ _ _ _ _ hin.1 hin.2]
        have : ¬ (py = py ∧ ox + i = ox + j) := by
          rintro ⟨-, h⟩
          have : i = j := by omega
          exact hcs.1 (this ▸ hi)
        rw [decide_eq_false this, Bool.and_false, Bool.xor_false]
      · rw [pixelAt_out _ _ _ hin, pixelAt_out _ _ _ hin]
    simp only [Bool.or_eq_true, Bool.and_eq_true, List.exists_mem_cons_iff]
    constructor
    · rintro ((h | h) | ⟨i, hi, h1, h2⟩)
      · exact .inl h
      · exact .inr (.inl h)
      · exact .inr (.inr ⟨i, hi, h1, hsame i hi ▸ h2⟩)
    · rintro (h | h | ⟨i, hi, h1, h2⟩)
      · exact .inl (.inl h)
      · exact .inl (.inr h)
      · exact .inr ⟨i, hi, h1, (hsame i hi).symm ▸ h2⟩

theorem plotRow_range_pixel (py ox : Nat) (row : Byte) (b : Blit) (r c : Nat) (hr : r < 32) (hc : c < 64) :
    pixelAt (plotRow py ox row (List.range 8) b).fb r c = (pixelAt b.fb r c ^^ (decide (r = py) && spriteAt [row] py ox py c)) := by
  rw [plotRow_pixel _ _ _ _ List.nodup_range _ _ _ hr hc]
  congr 1
  rw [Bool.eq_iff_iff]
  simp only [decide_eq_true_eq, spriteAt, Bool.and_eq_true, Nat.sub_self, List.getElem?_cons_zero, Option.getD_some,
    List.mem_range]
  constructor
  · rintro ⟨h, j, hj, rfl, hb⟩
    refine ⟨h, ⟨le_refl _, by omega, by omega⟩, ?_⟩
    rwa [Nat.add_sub_cancel_left]
  · rintro ⟨h, ⟨-, h1, h2⟩, hb⟩
    exact ⟨h, c - ox, by omega, by omega, hb⟩

theorem plotRow_range_hit (py ox : Nat) (row : Byte) (b : Blit) :
    (plotRow py ox row (List.range 8) b).hit = true
      ↔ b.hit = true ∨ ∃ c, pixelAt b.fb py c = true ∧ spriteAt [row] py ox py c = true := by
  rw [plotRow_hit _ _ _ _ List.nodup_range]
  simp only [decide_eq_true_eq, spriteAt, Bool.and_eq_true, Nat.sub_self, List.getElem?_cons_zero, Option.getD_some,
    List.mem_range]
  constructor
  · rintro (h | ⟨j, hj, hb, hp⟩)
    · exact .inl h
    · refine .inr ⟨ox + j, hp, ⟨le_refl _, by omega, by omega⟩, ?_⟩
      rwa [Nat.add_sub_cancel_left]
  · rintro (h | ⟨c, hp, ⟨-, h1, h2⟩, hb⟩)
    · exact .inl h
    · refine .inr ⟨c - ox, by omega, hb, ?_⟩
      rwa [Nat.add_sub_cancel' h1]

theorem spriteAt_cons_other (row : Byte) (rows : List Byte) (py ox r c : Nat) (h : r ≠ py) :
    spriteAt (row :: rows) py ox r c = spriteAt rows (py + 1) ox r c := by
  unfold spriteAt
  by_cases hle : py ≤ r
  · obtain ⟨k, rfl⟩ : ∃ k, r = py + 1 + k := ⟨r - (py + 1), by omega⟩
    have h1 : py + 1 + k - py = k + 1 := by omega
    have h2 : py + 1 + k - (py + 1) = k := by omega
    have h3 : py ≤ py + 1 + k := by omega
    have h4 : py + 1 ≤ py + 1 + k := by omega
    simp [h1, h2, h3, h4]
  · have h1 : ¬ py + 1 ≤ r := by omega
    simp [hle, h1]

theorem spriteAt_cons_self (row : Byte) (rows : List Byte) (py ox c : Nat) :
    spriteAt (row :: rows) py ox py c = spriteAt [row] py ox py c := by simp [spriteAt]

theorem spriteAt_above (rows : List Byte) (py ox r c : Nat) (h : r < py) : spriteAt rows py ox r c = false := by
  have : ¬ py ≤ r := by omega
  simp [spriteAt, this]

/-- Every pixel after a blit: toggled exactly where the sprite has a set bit (R181). -/
theorem plotRows_pixel (ox py : Nat) (rows : List Byte) (b : Blit) (r c : Nat) (hr : r < 32) (hc : c < 64) :
    pixelAt (plotRows ox py rows b).fb r c = (pixelAt b.fb r c ^^ spriteAt rows py ox r c) := by
  induction rows generalizing py b with
  | nil => simp [plotRows, spriteAt]
  | cons row rows ih =>
    rw [plotRows, ih, plotRow_range_pixel _ _ _ _ _ _ hr hc]
    by_cases h : r = py
    · subst h
      simp [spriteAt_cons_self row rows, spriteAt_above rows (r + 1) ox r c (by omega)]
    · simp [h, spriteAt_cons_other row rows py ox r c h]

/-- The collision flag after a blit: some set sprite bit fell on a pixel that was on when it began (R188). -/
theorem plotRows_hit (ox py : Nat) (rows : List Byte) (b : Blit) :
    (plotRows ox py rows b).hit = true
      ↔ b.hit = true ∨ ∃ r c, pixelAt b.fb r c = true ∧ spriteAt rows py ox r c = true := by
  induction rows generalizing py b with
  | nil => simp [plotRows, spriteAt]
  | cons row rows ih =>
    rw [plotRows, ih, plotRow_range_hit]
    constructor
    · rintro ((h | ⟨c, hp, hs⟩) | ⟨r, c, hp, hs⟩)
      · exact .inl h
      · exact .inr ⟨py, c, hp, by rwa [spriteAt_cons_self]⟩
      · have hlt : py < r := by
          by_contra hle
          rw [spriteAt_above rows (py + 1) ox r c (by omega)] at hs
          exact absurd hs (by decide)
        have hin : r < 32 ∧ c < 64 := by
          by_contra hout
          rw [pixelAt_out _ _ _ hout] at hp
          exact absurd hp (by decide)
        rw [plotRow_range_pixel _ _ _ _ _ _ hin.1 hin.2] at hp
        have hne : r ≠ py := by omega
        simp only [hne, decide_false, Bool.false_and, Bool.xor_false] at hp
        exact .inr ⟨r, c, hp, by rwa [spriteAt_cons_other row rows py ox r c hne]⟩
    · rintro (h | ⟨r, c, hp, hs⟩)
      · exact .inl (.inl h)
      · by_cases hne : r = py
        · subst hne
          exact .inl (.inr ⟨c, hp, by rwa [spriteAt_cons_self] at hs⟩)
        · refine .inr ⟨r, c, ?_, by rwa [spriteAt_cons_other row rows py ox r c hne] at hs⟩
          have hin : r < 32 ∧ c < 64 := by
            by_contra hout
            rw [pixelAt_out _ _ _ hout] at hp
            exact absurd hp (by decide)
          rw [plotRow_range_pixel _ _ _ _ _ _ hin.1 hin.2]
          simpa [hne] using hp

/-- Two frames with the same pixels are the same frame. -/
theorem frame_ext (f g : Frame) (h : ∀ r c, r < 32 → c < 64 → pixelAt f r c = pixelAt g r c) : f = g := by
  apply Vector.ext
  intro r hr
  apply Vector.ext
  intro c hc
  have := h r c hr hc
  simpa [pixelAt, hr, hc] using this

/-- The sprite bits the blit reads from a block's bytes are the ones a claim names. -/
theorem spriteAt_block (s : State) (ox oy n r c : Nat) :
    spriteAt ((List.range n).map fun j => s.readByte (BitVec.ofNat 12 (s.index.toNat + j))) oy ox r c
      = spriteBit s ox oy n r c := by
  unfold spriteAt spriteBit
  by_cases h : r - oy < n
  · have : decide (oy ≤ r ∧ ox ≤ c ∧ c < ox + 8) = decide (oy ≤ r ∧ r < oy + n ∧ ox ≤ c ∧ c < ox + 8) := by
      congr 1; apply propext; omega
    rw [this]; simp [h]
  · have : decide (oy ≤ r ∧ r < oy + n ∧ ox ≤ c ∧ c < ox + 8) = false := decide_eq_false (by omega)
    rw [this]; simp [h]

/-- The drawn frame, pixel by pixel (R181). -/
theorem drawSprite_pixel (s : State) (vx vy : Byte) (n r c : Nat) (hr : r < 32) (hc : c < 64) :
    pixelAt (drawSprite s.fb vx vy ((List.range n).map fun j => s.readByte (BitVec.ofNat 12 (s.index.toNat + j)))).fb r c
      = (pixelAt s.fb r c ^^ spriteBit s (vx.toNat % 64) (vy.toNat % 32) n r c) := by
  rw [drawSprite, plotRows_pixel _ _ _ _ r c hr hc, spriteAt_block]

/-- The collision flag of a draw (R181, R188). -/
theorem drawSprite_hit (s : State) (vx vy : Byte) (n : Nat) :
    (drawSprite s.fb vx vy ((List.range n).map fun j => s.readByte (BitVec.ofNat 12 (s.index.toNat + j)))).hit = true
      ↔ ∃ r c, r < 32 ∧ c < 64 ∧ pixelAt s.fb r c = true
          ∧ spriteBit s (vx.toNat % 64) (vy.toNat % 32) n r c = true := by
  rw [drawSprite, plotRows_hit]
  simp only [spriteAt_block, Bool.false_eq_true, false_or]
  constructor
  · rintro ⟨r, c, h1, h2⟩
    have : r < 32 ∧ c < 64 := by
      by_contra h
      rw [pixelAt_out _ _ _ h] at h1
      exact absurd h1 (by decide)
    exact ⟨r, c, this.1, this.2, h1, h2⟩
  · rintro ⟨r, c, -, -, h1, h2⟩
    exact ⟨r, c, h1, h2⟩

/-- A sprite is its bytes: states with the same I and the same bytes there have the same sprite bits. -/
theorem spriteBit_congr (s s2 : State) (ox oy n : Nat) (hi : s2.index = s.index)
    (hb : ∀ k < n, s2.readByte (BitVec.ofNat 12 (s.index.toNat + k)) = s.readByte (BitVec.ofNat 12 (s.index.toNat + k)))
    (r c : Nat) : spriteBit s2 ox oy n r c = spriteBit s ox oy n r c := by
  unfold spriteBit
  by_cases h : oy ≤ r ∧ r < oy + n ∧ ox ≤ c ∧ c < ox + 8
  · rw [hi, hb _ (by omega)]
  · simp only [decide_eq_false h, Bool.false_and]

end Sys2Proof.Machine
end

