-- ==== Sys2Proof/Laws/Encoding.lean ====
section
/-! SUPPORT. The three shapes of a row's mask: what a word must have for the row's encoding line to apply. -/

namespace Sys2Proof.Machine

/-- A row that fixes the first nibble only. -/
theorem encodedAs_F000 (a : Nibble) (of : Word → Instr) (h : ∀ op, Decode.n1 op = a → Decode.byGroup op = some (of op)) :
    EncodedAs (ofNibbles a 0 0 0) 0xF000#16 of := by
  intro op hop
  rw [← ofNibbles_fields op, ofNibbles_and_F000, ofNibbles_inj] at hop
  exact (decode_eq_ok op _).mpr (h op hop.1)

/-- A row that fixes the first and the last nibble. -/
theorem encodedAs_F00F (a d : Nibble) (of : Word → Instr)
    (h : ∀ op, Decode.n1 op = a → Decode.n op = d → Decode.byGroup op = some (of op)) :
    EncodedAs (ofNibbles a 0 0 d) 0xF00F#16 of := by
  intro op hop
  rw [← ofNibbles_fields op, ofNibbles_and_F00F, ofNibbles_inj] at hop
  exact (decode_eq_ok op _).mpr (h op hop.1 hop.2.2.2)

/-- A row that fixes the first nibble and the low byte. -/
theorem encodedAs_F0FF (a : Nibble) (k : Byte) (of : Word → Instr)
    (h : ∀ op, Decode.n1 op = a → Decode.kk op = k → Decode.byGroup op = some (of op)) :
    EncodedAs (ofNibblesByte a 0 k) 0xF0FF#16 of := by
  intro op hop
  rw [← ofNibbles_fields op, ofNibbles_and_F0FF, ofNibblesByte_eq, ofNibbles_inj] at hop
  refine (decode_eq_ok op _).mpr (h op hop.1 (BitVec.eq_of_toNat_eq ?_))
  have hy := congrArg BitVec.toNat hop.2.2.1
  have hn := congrArg BitVec.toNat hop.2.2.2
  rw [regNibble_toNat, Decode.y_val] at hy
  rw [Decode.n_toNat] at hn
  simp only [BitVec.toNat_ofNat] at hy hn
  rw [Decode.kk_toNat]
  have := k.isLt
  omega

end Sys2Proof.Machine
end

