-- ==== Sys2Proof/Laws/Exec.lean ====
section
/-! SUPPORT. What each shared operation and each instruction answers, in one equation each: the provers cite these
instead of unfolding a meaning. -/

namespace Sys2Proof.Machine

/-- Everything the commit of a step can give (R109 to R111). -/
theorem commit_cases (s : State) (b : Bool) (r : Result) :
    (∃ t, r = .done t ∧ commit s b r = t.complete b) ∨ (r = .suspend ∧ commit s b r = s.suspend)
      ∨ (∃ c, r = .raise c ∧ commit s b r = s.takeFault c) := by
  cases r with
  | done t => exact .inl ⟨t, rfl, rfl⟩
  | suspend => exact .inr (.inl ⟨rfl, rfl⟩)
  | raise c => exact .inr (.inr ⟨c, rfl, rfl⟩)

theorem withBlock_fits (s : State) (n : Nat) (k : List Addr → Result) (h : s.BlockFits n) :
    withBlock s n k = k ((List.range n).map fun j => BitVec.ofNat 12 (s.index.toNat + j)) := by
  simp [withBlock, State.block_fits s n h]

theorem withBlock_none (s : State) (n : Nat) (k : List Addr → Result) (h : ¬ s.BlockFits n) :
    withBlock s n k = .raise .memRange := by
  simp [withBlock, State.block_none s n h]

variable (s : State)

theorem exec_cls : exec .cls s = .next ({ s.advance with fb := blankFrame }.complete true) := rfl

theorem exec_ret_pop (h : s.sp ≠ 0) : exec .ret s = .next (s.advance.popPc.complete false) := by
  have h' : ¬ s.advance.sp = 0 := h
  simp only [exec, execRet, runRule, if_neg h', commit]

theorem exec_ret_empty (h : s.sp = 0) : exec .ret s = .next (s.takeFault .stackUnderflow) := by
  simp [exec, execRet, runRule, h, commit]

theorem exec_jp (a : Addr) : exec (.jp a) s = .next ((s.advance.jump a).complete false) := rfl

theorem exec_call_push (a : Addr) (h : s.sp ≠ 16) :
    exec (.call a) s = .next (((s.advance.push (s.fetchAddr + 2)).jump a).complete false) := by
  have h' : ¬ s.advance.sp = 16 := h
  simp only [exec, execCall, runRule, if_neg h', commit, State.advance_pc]

theorem exec_call_full (a : Addr) (h : s.sp = 16) : exec (.call a) s = .next (s.takeFault .stackOverflow) := by
  simp [exec, execCall, runRule, h, commit]

theorem exec_seVxKk (x : RegIx) (kk : Byte) :
    exec (.seVxKk x kk) s = .next ((s.advance.skipIf (s.readV x == kk)).complete false) := rfl

theorem exec_sneVxKk (x : RegIx) (kk : Byte) :
    exec (.sneVxKk x kk) s = .next ((s.advance.skipIf (s.readV x != kk)).complete false) := rfl

theorem exec_seVxVy (x y : RegIx) :
    exec (.seVxVy x y) s = .next ((s.advance.skipIf (s.readV x == s.readV y)).complete false) := rfl

theorem exec_sneVxVy (x y : RegIx) :
    exec (.sneVxVy x y) s = .next ((s.advance.skipIf (s.readV x != s.readV y)).complete false) := rfl

theorem exec_ldVxKk (x : RegIx) (kk : Byte) : exec (.ldVxKk x kk) s = .next ((s.advance.writeV x kk).complete false) := rfl

theorem exec_addVxKk (x : RegIx) (kk : Byte) :
    exec (.addVxKk x kk) s = .next ((s.advance.writeV x (s.readV x + kk)).complete false) := rfl

theorem exec_ldVxVy (x y : RegIx) :
    exec (.ldVxVy x y) s = .next ((s.advance.writeV x (s.readV y)).complete false) := rfl

theorem exec_orVxVy (x y : RegIx) :
    exec (.orVxVy x y) s = .next ((s.advance.writeV x (s.readV x ||| s.readV y)).complete false) := rfl

theorem exec_andVxVy (x y : RegIx) :
    exec (.andVxVy x y) s = .next ((s.advance.writeV x (s.readV x &&& s.readV y)).complete false) := rfl

theorem exec_xorVxVy (x y : RegIx) :
    exec (.xorVxVy x y) s = .next ((s.advance.writeV x (s.readV x ^^^ s.readV y)).complete false) := rfl

theorem exec_addVxVy (x y : RegIx) :
    exec (.addVxVy x y) s = .next
      ((s.advance.writeWithFlag x (s.readV x + s.readV y) (carryFlag (s.readV x) (s.readV y))).complete false) := rfl

theorem exec_subVxVy (x y : RegIx) :
    exec (.subVxVy x y) s = .next
      ((s.advance.writeWithFlag x (s.readV x - s.readV y) (greaterFlag (s.readV x) (s.readV y))).complete false) := rfl

theorem exec_shrVx (x : RegIx) :
    exec (.shrVx x) s = .next
      ((s.advance.writeWithFlag x (s.readV x >>> 1) (shiftOutLow (s.readV x))).complete false) := rfl

theorem exec_subnVxVy (x y : RegIx) :
    exec (.subnVxVy x y) s = .next
      ((s.advance.writeWithFlag x (s.readV y - s.readV x) (greaterFlag (s.readV y) (s.readV x))).complete false) := rfl

theorem exec_shlVx (x : RegIx) :
    exec (.shlVx x) s = .next
      ((s.advance.writeWithFlag x (s.readV x <<< 1) (shiftOutHigh (s.readV x))).complete false) := rfl

theorem exec_ldINnn (a : Addr) : exec (.ldINnn a) s = .next ({ s.advance with index := a }.complete false) := rfl

theorem exec_jpV0 (a : Addr) :
    exec (.jpV0 a) s = .next
      ((s.advance.jump (BitVec.ofNat 12 ((s.readV 0).toNat + a.toNat))).complete false) := rfl

theorem exec_rndVxKk (x : RegIx) (kk : Byte) :
    exec (.rndVxKk x kk) s = .next ((s.advance.writeV x (s.rnd &&& kk)).complete false) := rfl

theorem exec_drw_fits (x y : RegIx) (n : Nat) (h : s.BlockFits n) :
    exec (.drw x y n) s = .next ((s.advance.withBlit (drawSprite s.fb (s.readV x) (s.readV y)
      ((List.range n).map fun j => s.readByte (BitVec.ofNat 12 (s.index.toNat + j))))).complete true) := by
  have h' : s.advance.BlockFits n := h
  simp only [exec, execDrw, runDisplayRule, withBlock_fits _ _ _ h', commit, List.map_map]
  rfl

theorem exec_drw_out (x y : RegIx) (n : Nat) (h : ¬ s.BlockFits n) :
    exec (.drw x y n) s = .next (s.takeFault .memRange) := by
  have h' : ¬ s.advance.BlockFits n := h
  simp only [exec, execDrw, runDisplayRule, withBlock_none _ _ _ h', commit]

theorem exec_skpVx (x : RegIx) (h : (s.readV x).toNat ≤ 15) :
    exec (.skpVx x) s = .next ((s.advance.skipIf (s.keys.getLsbD (s.readV x).toNat)).complete false) := by
  have h' : ¬ (s.readV x).toNat > 15 := by omega
  simp [exec, execSkpVx, runRule, h', commit]

theorem exec_skpVx_range (x : RegIx) (h : 15 < (s.readV x).toNat) :
    exec (.skpVx x) s = .next (s.takeFault .keyRange) := by
  simp [exec, execSkpVx, runRule, h, commit]

theorem exec_sknpVx (x : RegIx) (h : (s.readV x).toNat ≤ 15) :
    exec (.sknpVx x) s = .next ((s.advance.skipIf (!s.keys.getLsbD (s.readV x).toNat)).complete false) := by
  have h' : ¬ (s.readV x).toNat > 15 := by omega
  simp [exec, execSknpVx, runRule, h', commit]

theorem exec_sknpVx_range (x : RegIx) (h : 15 < (s.readV x).toNat) :
    exec (.sknpVx x) s = .next (s.takeFault .keyRange) := by
  simp [exec, execSknpVx, runRule, h, commit]

theorem exec_ldVxDt (x : RegIx) : exec (.ldVxDt x) s = .next ((s.advance.writeV x s.dt).complete false) := rfl

theorem exec_ldVxK_wait (x : RegIx) (h : s.keys = 0) : exec (.ldVxK x) s = .next s.suspend := by
  have h' := (lowestKey_eq_none s.keys).mpr h
  simp [exec, execLdVxK, runRule, h', commit]

theorem exec_ldVxK_key (x k : RegIx) (h : lowestKey s.keys = some k) :
    exec (.ldVxK x) s = .next ((s.advance.writeV x (BitVec.ofNat 8 k.val)).complete false) := by
  simp [exec, execLdVxK, runRule, h, commit]

theorem exec_ldDtVx (x : RegIx) : exec (.ldDtVx x) s = .next ({ s.advance with dt := s.readV x }.complete false) := rfl

theorem exec_ldStVx (x : RegIx) : exec (.ldStVx x) s = .next ({ s.advance with st := s.readV x }.complete false) := rfl

theorem exec_addIVx (x : RegIx) :
    exec (.addIVx x) s = .next
      ({ s.advance with index := BitVec.ofNat 12 (s.index.toNat + (s.readV x).toNat) }.complete false) := rfl

theorem exec_ldFVx (x : RegIx) :
    exec (.ldFVx x) s = .next ({ s.advance with index := glyphAddr s.cfg (s.readV x) }.complete false) := rfl

theorem exec_ldBVx_fits (x : RegIx) (h : s.BlockFits 3) :
    exec (.ldBVx x) s = .next ((s.advance.writeBytes
      (((List.range 3).map fun j => BitVec.ofNat 12 (s.index.toNat + j)).zip (decimalDigits (s.readV x)))).complete false) := by
  have h' : s.advance.BlockFits 3 := h
  simp only [exec, execLdBVx, runRule, withBlock_fits _ _ _ h', commit, State.advance_index, State.readV_advance]

theorem exec_ldBVx_out (x : RegIx) (h : ¬ s.BlockFits 3) : exec (.ldBVx x) s = .next (s.takeFault .memRange) := by
  have h' : ¬ s.advance.BlockFits 3 := h
  simp only [exec, execLdBVx, runRule, withBlock_none _ _ _ h', commit]

theorem exec_ldMemVx_fits (x : RegIx) (h : s.BlockFits (x.val + 1)) :
    exec (.ldMemVx x) s = .next ((s.advance.writeBytes
      (((List.range (x.val + 1)).map fun j => BitVec.ofNat 12 (s.index.toNat + j)).zip (s.regsTo x))).complete false) := by
  have h' : s.advance.BlockFits (x.val + 1) := h
  simp only [exec, execLdMemVx, runRule, withBlock_fits _ _ _ h', commit, State.advance_index, State.regsTo_advance]

theorem exec_ldMemVx_out (x : RegIx) (h : ¬ s.BlockFits (x.val + 1)) :
    exec (.ldMemVx x) s = .next (s.takeFault .memRange) := by
  have h' : ¬ s.advance.BlockFits (x.val + 1) := h
  simp only [exec, execLdMemVx, runRule, withBlock_none _ _ _ h', commit]

theorem exec_ldVxMem_fits (x : RegIx) (h : s.BlockFits (x.val + 1)) :
    exec (.ldVxMem x) s = .next ((s.advance.writeRegs
      ((List.range (x.val + 1)).map fun j => s.readByte (BitVec.ofNat 12 (s.index.toNat + j)))).complete false) := by
  have h' : s.advance.BlockFits (x.val + 1) := h
  simp only [exec, execLdVxMem, runRule, withBlock_fits _ _ _ h', commit, List.map_map]
  rfl

theorem exec_ldVxMem_out (x : RegIx) (h : ¬ s.BlockFits (x.val + 1)) :
    exec (.ldVxMem x) s = .next (s.takeFault .memRange) := by
  have h' : ¬ s.advance.BlockFits (x.val + 1) := h
  simp only [exec, execLdVxMem, runRule, withBlock_none _ _ _ h', commit]

/-- Everything one step of the core can do (R112), by where it ends. -/
theorem cycle_cases (s : State) :
    (s.fault = true ∧ cycle s = .next s)
      ∨ (s.fault = false ∧ s.fetchAddr.toNat < 0x200 ∧ cycle s = .next (s.takeFault .reservedFetch))
      ∨ (s.fault = false ∧ 0x200 ≤ s.fetchAddr.toNat ∧ decode s.fetchWord = .error (.invalidOpcode s.fetchWord)
          ∧ cycle s = .next (s.takeFault .invalidOpcode))
      ∨ (∃ i, s.fault = false ∧ 0x200 ≤ s.fetchAddr.toNat ∧ decode s.fetchWord = .ok i ∧ cycle s = exec i s) := by
  unfold cycle
  cases hf : s.fault
  · by_cases ha : s.fetchAddr.toNat < 0x200
    · exact .inr (.inl ⟨rfl, ha, by simp [ha]⟩)
    · right; right
      cases hd : decode s.fetchWord with
      | ok i => exact .inr ⟨i, rfl, by omega, rfl, by simp [ha]⟩
      | error e =>
        have he : e = .invalidOpcode s.fetchWord := by
          unfold decode at hd
          split at hd
          · simp at hd
          · exact (Except.error.inj hd).symm
        subst he
        exact .inl ⟨rfl, by omega, rfl, by simp [ha]⟩
  · exact .inl ⟨rfl, by simp⟩

/-- `step` is the core's step followed by the end of the request (R118). -/
theorem step_of_cycle (s t : State) (h : cycle s = .next t) : step s = .next t.endStep := by
  simp [step, stepRequest, thenNext, h]

end Sys2Proof.Machine
end

