-- ==== Sys2Proof/Laws/Step.lean ====
section
/-! SUPPORT. What one instruction and one step can do, said once, and the frames of the shared ways to end. -/

namespace Sys2Proof.Machine

/-- `t` has the latch, the parameters, the schedule and the counter of `s`: what no completed instruction writes. -/
structure SameBackground (s t : State) : Prop where
  fault : t.fault = s.fault
  faultCause : t.faultCause = s.faultCause
  faultPc : t.faultPc = s.faultPc
  faultOp : t.faultOp = s.faultOp
  cfg : t.cfg = s.cfg
  inputs : t.inputs = s.inputs
  steps : t.steps = s.steps

/-- Everything an instruction can do: complete with the latch, the parameters and the schedule untouched, suspend (the key
wait with no key pressed), or take the fault its own check gives (R108, R250). -/
theorem exec_cases (i : Instr) (s : State) :
    (∃ t, exec i s = .next (t.complete i.touchesDisplay) ∧ instrFault i s = none ∧ (∀ x, i = .ldVxK x → s.keys ≠ 0)
        ∧ SameBackground s t)
      ∨ (exec i s = .next s.suspend ∧ instrFault i s = none ∧ (∃ x, i = .ldVxK x) ∧ s.keys = 0)
      ∨ (∃ c, exec i s = .next (s.takeFault c) ∧ instrFault i s = some c ∧ c ≠ .none ∧ c ≠ .reservedFetch) := by
  cases i with
  | ret =>
    by_cases h : s.sp = 0
    · exact .inr (.inr ⟨_, exec_ret_empty s h, if_pos h, by decide, by decide⟩)
    · exact .inl ⟨_, exec_ret_pop s h, if_neg h, by simp, by constructor <;> rfl⟩
  | call a =>
    by_cases h : s.sp = 16
    · exact .inr (.inr ⟨_, exec_call_full s a h, if_pos h, by decide, by decide⟩)
    · exact .inl ⟨_, exec_call_push s a h, if_neg h, by simp, by constructor <;> rfl⟩
  | skpVx x =>
    by_cases h : 15 < (s.readV x).toNat
    · exact .inr (.inr ⟨_, exec_skpVx_range s x h, if_pos h, by decide, by decide⟩)
    · exact .inl ⟨_, exec_skpVx s x (by omega), if_neg h, by simp, by constructor <;> simp⟩
  | sknpVx x =>
    by_cases h : 15 < (s.readV x).toNat
    · exact .inr (.inr ⟨_, exec_sknpVx_range s x h, if_pos h, by decide, by decide⟩)
    · exact .inl ⟨_, exec_sknpVx s x (by omega), if_neg h, by simp, by constructor <;> simp⟩
  | drw x y n =>
    by_cases h : s.BlockFits n
    · exact .inl ⟨_, exec_drw_fits s x y n h, if_pos h, by simp, by constructor <;> rfl⟩
    · exact .inr (.inr ⟨_, exec_drw_out s x y n h, if_neg h, by decide, by decide⟩)
  | ldBVx x =>
    by_cases h : s.BlockFits 3
    · exact .inl ⟨_, exec_ldBVx_fits s x h, if_pos h, by simp, by constructor <;> simp⟩
    · exact .inr (.inr ⟨_, exec_ldBVx_out s x h, if_neg h, by decide, by decide⟩)
  | ldMemVx x =>
    by_cases h : s.BlockFits (x.val + 1)
    · exact .inl ⟨_, exec_ldMemVx_fits s x h, if_pos h, by simp, by constructor <;> simp⟩
    · exact .inr (.inr ⟨_, exec_ldMemVx_out s x h, if_neg h, by decide, by decide⟩)
  | ldVxMem x =>
    by_cases h : s.BlockFits (x.val + 1)
    · exact .inl ⟨_, exec_ldVxMem_fits s x h, if_pos h, by simp, by constructor <;> rfl⟩
    · exact .inr (.inr ⟨_, exec_ldVxMem_out s x h, if_neg h, by decide, by decide⟩)
  | ldVxK x =>
    cases h : lowestKey s.keys with
    | none =>
      have h0 := (lowestKey_eq_none s.keys).mp h
      exact .inr (.inl ⟨exec_ldVxK_wait s x h0, rfl, ⟨x, rfl⟩, h0⟩)
    | some k =>
      have h0 : s.keys ≠ 0 := fun h0 => by rw [(lowestKey_eq_none s.keys).mpr h0] at h; simp at h
      exact .inl ⟨_, exec_ldVxK_key s x k h, rfl, fun _ _ => h0, by constructor <;> rfl⟩
  | seVxKk x kk => exact .inl ⟨_, exec_seVxKk s x kk, rfl, by simp, by constructor <;> simp⟩
  | sneVxKk x kk => exact .inl ⟨_, exec_sneVxKk s x kk, rfl, by simp, by constructor <;> simp⟩
  | seVxVy x y => exact .inl ⟨_, exec_seVxVy s x y, rfl, by simp, by constructor <;> simp⟩
  | sneVxVy x y => exact .inl ⟨_, exec_sneVxVy s x y, rfl, by simp, by constructor <;> simp⟩
  | cls => exact .inl ⟨_, exec_cls s, rfl, by simp, by constructor <;> rfl⟩
  | jp a => exact .inl ⟨_, exec_jp s a, rfl, by simp, by constructor <;> rfl⟩
  | ldVxKk x kk => exact .inl ⟨_, exec_ldVxKk s x kk, rfl, by simp, by constructor <;> rfl⟩
  | addVxKk x kk => exact .inl ⟨_, exec_addVxKk s x kk, rfl, by simp, by constructor <;> rfl⟩
  | ldVxVy x y => exact .inl ⟨_, exec_ldVxVy s x y, rfl, by simp, by constructor <;> rfl⟩
  | orVxVy x y => exact .inl ⟨_, exec_orVxVy s x y, rfl, by simp, by constructor <;> rfl⟩
  | andVxVy x y => exact .inl ⟨_, exec_andVxVy s x y, rfl, by simp, by constructor <;> rfl⟩
  | xorVxVy x y => exact .inl ⟨_, exec_xorVxVy s x y, rfl, by simp, by constructor <;> rfl⟩
  | addVxVy x y => exact .inl ⟨_, exec_addVxVy s x y, rfl, by simp, by constructor <;> rfl⟩
  | subVxVy x y => exact .inl ⟨_, exec_subVxVy s x y, rfl, by simp, by constructor <;> rfl⟩
  | shrVx x => exact .inl ⟨_, exec_shrVx s x, rfl, by simp, by constructor <;> rfl⟩
  | subnVxVy x y => exact .inl ⟨_, exec_subnVxVy s x y, rfl, by simp, by constructor <;> rfl⟩
  | shlVx x => exact .inl ⟨_, exec_shlVx s x, rfl, by simp, by constructor <;> rfl⟩
  | ldINnn a => exact .inl ⟨_, exec_ldINnn s a, rfl, by simp, by constructor <;> rfl⟩
  | jpV0 a => exact .inl ⟨_, exec_jpV0 s a, rfl, by simp, by constructor <;> rfl⟩
  | rndVxKk x kk => exact .inl ⟨_, exec_rndVxKk s x kk, rfl, by simp, by constructor <;> rfl⟩
  | ldVxDt x => exact .inl ⟨_, exec_ldVxDt s x, rfl, by simp, by constructor <;> rfl⟩
  | ldDtVx x => exact .inl ⟨_, exec_ldDtVx s x, rfl, by simp, by constructor <;> rfl⟩
  | ldStVx x => exact .inl ⟨_, exec_ldStVx s x, rfl, by simp, by constructor <;> rfl⟩
  | addIVx x => exact .inl ⟨_, exec_addIVx s x, rfl, by simp, by constructor <;> rfl⟩
  | ldFVx x => exact .inl ⟨_, exec_ldFVx s x, rfl, by simp, by constructor <;> rfl⟩

/-- An instruction always answers a next state. -/
theorem exec_next (i : Instr) (s : State) : ∃ t, exec i s = .next t := by
  rcases exec_cases i s with ⟨t, h, -⟩ | ⟨h, -⟩ | ⟨c, h, -⟩
  · exact ⟨_, h⟩
  · exact ⟨_, h⟩
  · exact ⟨_, h⟩

/-- The frame of the fault path (R252). -/
theorem onlyChanges_takeFault (s : State) (c : FaultCause) : OnlyChanges [.latch, .await, .fbChanged] s (s.takeFault c) := by
  intro p hp
  cases p <;> first | (simp at hp; done) | rfl | exact ⟨rfl, rfl, rfl, rfl⟩ | exact ⟨rfl, rfl⟩

theorem faultLatched_takeFault (s : State) (c : FaultCause) :
    FaultLatched c (if c = .reservedFetch then 0 else s.fetchWord) s (s.takeFault c) :=
  ⟨rfl, rfl, rfl, rfl, rfl, rfl, onlyChanges_takeFault s c⟩

/-- An instruction that takes a fault raises it as R252 says. -/
theorem raises_of_takeFault (i : Instr) (s : State) (c : FaultCause) (h : exec i s = .next (s.takeFault c))
    (hc : c ≠ .reservedFetch) : Raises i s c := by
  have hl := faultLatched_takeFault s c
  rw [if_neg hc] at hl
  exact ⟨_, h, hl⟩

/-- The frame of a suspended step (R110). -/
theorem onlyChanges_suspend (s : State) : OnlyChanges [.pc, .await, .fbChanged] s s.suspend := by
  intro p hp
  cases p <;> first | (simp at hp; done) | rfl | exact ⟨rfl, rfl, rfl, rfl⟩ | exact ⟨rfl, rfl⟩

/-- The frame of the end of a step request (R118, R211). -/
theorem onlyChanges_endStep (s : State) : OnlyChanges [.dt, .st, .host] s s.endStep := by
  intro p hp
  cases p <;> first | (simp at hp; done) | rfl | exact ⟨rfl, rfl, rfl, rfl⟩

theorem State.fetchAddr_add_two (s : State) : (s.fetchAddr + 2).toNat = s.fetchAddr.toNat + 2 := by
  have := s.fetchAddr_lt
  rw [BitVec.toNat_add]; simp; omega

theorem State.fetchAddr_add_four (s : State) : (s.fetchAddr + 2 + 2).toNat = s.fetchAddr.toNat + 4 := by
  have := s.fetchAddr_lt
  rw [BitVec.toNat_add, s.fetchAddr_add_two]; simp; omega

/-- Everything one step of a core that is not faulted can do: take the fault of R257's checks, or run the decoded
instruction, which suspends or completes with the latch, the parameters and the schedule untouched. -/
theorem cycle_unfaulted (s : State) (hf : s.fault = false) :
    (∃ c, stepFault s = some c ∧ c ≠ .none ∧ cycle s = .next (s.takeFault c))
      ∨ ∃ i, 0x200 ≤ s.fetchAddr.toNat ∧ stepFault s = none ∧ decode s.fetchWord = .ok i ∧ cycle s = exec i s
          ∧ ((exec i s = .next s.suspend ∧ (∃ x, i = .ldVxK x) ∧ s.keys = 0)
            ∨ ∃ t, exec i s = .next (t.complete i.touchesDisplay) ∧ (∀ x, i = .ldVxK x → s.keys ≠ 0)
                ∧ SameBackground s t) := by
  rcases cycle_cases s with h | h | h | ⟨i, -, ha, hd, hc⟩
  · simp [hf] at h
  · exact .inl ⟨_, by simp [stepFault, h.2.1], by decide, h.2.2⟩
  · have : ¬ s.fetchAddr.toNat < 0x200 := by omega
    exact .inl ⟨.invalidOpcode, by simp [stepFault, h.2.2.1, this], by decide, h.2.2.2⟩
  · have ha' : ¬ s.fetchAddr.toNat < 0x200 := by omega
    have hsf : stepFault s = instrFault i s := by simp [stepFault, hd, ha']
    rcases exec_cases i s with ⟨t, he, hn, hk, hb⟩ | ⟨he, hn, hk⟩ | ⟨c, he, hn, hk, -⟩
    · exact .inr ⟨i, ha, by rw [hsf, hn], hd, hc, .inr ⟨t, he, hk, hb⟩⟩
    · exact .inr ⟨i, ha, by rw [hsf, hn], hd, hc, .inl ⟨he, hk⟩⟩
    · exact .inl ⟨c, by rw [hsf, hn], hk, by rw [hc, he]⟩

/-- A step suspends when the decoded instruction is the key wait and no key is pressed. -/
theorem suspends_iff (s : State) (i : Instr) (hd : decode s.fetchWord = .ok i) :
    Suspends s ↔ (∃ x, i = .ldVxK x) ∧ s.keys = 0 := by
  simp [Suspends, hd]

/-- One step of the core always answers a next state, with the parameters, the schedule and the counter as before. -/
theorem cycle_next (s : State) :
    ∃ t, cycle s = .next t ∧ t.cfg = s.cfg ∧ t.inputs = s.inputs ∧ t.steps = s.steps := by
  cases hf : s.fault
  · rcases cycle_unfaulted s hf with ⟨c, -, -, hc⟩ | ⟨i, -, -, -, hc, ⟨he, -⟩ | ⟨t, he, -, hb⟩⟩
    · exact ⟨_, hc, rfl, rfl, rfl⟩
    · exact ⟨_, hc.trans he, rfl, rfl, rfl⟩
    · exact ⟨_, hc.trans he, hb.cfg, hb.inputs, hb.steps⟩
  · exact ⟨s, by simp [cycle, hf], rfl, rfl, rfl⟩

end Sys2Proof.Machine
end

