-- ==== Sys2Proof/Laws/Frames.lean ====
section
/-! SUPPORT. The frames of the shapes an instruction's rule takes, each said once: one register written, a register and the
flag, a skip, registers written from memory, bytes stored. -/

namespace Sys2Proof.Machine

/-- The frame of a rule that writes one register. -/
theorem onlyChanges_writeV (s : State) (x : RegIx) (b : Byte) :
    OnlyChanges [.await, .fbChanged, .pc, .reg x] s ((s.advance.writeV x b).complete false) := by
  intro p hp
  cases p with
  | reg r =>
    have hr : r ≠ x := by rintro rfl; exact hp (by simp)
    simp [Part.Same, State.readV_writeV, hr]
  | pc => simp at hp
  | await => simp at hp
  | fbChanged => simp at hp
  | latch => exact ⟨rfl, rfl, rfl, rfl⟩
  | host => exact ⟨rfl, rfl⟩
  | index | sp | entry j | dt | st | fb | byte a | cfg => rfl

/-- The frame of a rule that writes one register and then the flag. -/
theorem onlyChanges_writeWithFlag (s : State) (x : RegIx) (b f : Byte) :
    OnlyChanges [.await, .fbChanged, .pc, .reg x, .reg vf] s ((s.advance.writeWithFlag x b f).complete false) := by
  intro p hp
  cases p with
  | reg r =>
    have hx : r ≠ x := by rintro rfl; exact hp (by simp)
    have hf : r ≠ vf := by rintro rfl; exact hp (by simp)
    simp [Part.Same, State.readV_writeWithFlag, hx, hf]
  | pc => simp at hp
  | await => simp at hp
  | fbChanged => simp at hp
  | latch => exact ⟨rfl, rfl, rfl, rfl⟩
  | host => exact ⟨rfl, rfl⟩
  | index | sp | entry j | dt | st | fb | byte a | cfg => rfl

/-- The frame of a skip. -/
theorem onlyChanges_skipIf (s : State) (c : Bool) :
    OnlyChanges [.await, .fbChanged, .pc] s ((s.advance.skipIf c).complete false) := by
  intro p hp
  cases c <;> cases p <;> first | (simp at hp; done) | rfl | exact ⟨rfl, rfl, rfl, rfl⟩ | exact ⟨rfl, rfl⟩

/-- Where a skip leads (R107). -/
theorem skipIf_pc_toNat (s : State) (c : Bool) :
    ((s.advance.skipIf c).complete false).pc.toNat = s.fetchAddr.toNat + if c = true then 4 else 2 := by
  cases c
  · exact s.fetchAddr_add_two
  · exact s.fetchAddr_add_four

/-- A block write changes memory only, and of memory only its targets. -/
theorem same_writeBytes (s : State) (l : List (Addr × Byte)) (p : Part) (hp : ∀ a, p = .byte a → a ∉ l.map Prod.fst) :
    p.Same s (s.writeBytes l) := by
  cases p with
  | byte a => exact State.readByte_writeBytes_other s l a (hp a rfl)
  | reg r => simp [Part.Same, State.readV]
  | latch => simp [Part.Same]
  | host => simp [Part.Same]
  | entry j => simp [Part.Same]
  | pc | index | sp | dt | st | fb | await | fbChanged | cfg => simp [Part.Same]

/-- The frame of a rule that stores bytes. -/
theorem onlyChanges_writeBytes (s : State) (l : List (Addr × Byte)) :
    OnlyChanges (.await :: .fbChanged :: .pc :: (l.map Prod.fst).map Part.byte) s
      ((s.advance.writeBytes l).complete false) := by
  intro p hp
  have h := same_writeBytes s.advance l p (by
    rintro a rfl ha
    exact hp (by simp only [List.mem_cons]; exact .inr (.inr (.inr (List.mem_map_of_mem ha)))))
  cases p with
  | pc => simp at hp
  | await => simp at hp
  | fbChanged => simp at hp
  | reg r => exact h
  | latch => exact h
  | host => exact h
  | index | sp | entry j | dt | st | fb | byte a | cfg => exact h

/-- The frame of a rule that loads registers: only those below the number of bytes change. -/
theorem onlyChanges_writeRegs (s : State) (bs : List Byte) :
    OnlyChanges (.await :: .fbChanged :: .pc :: ((List.finRange 16).filter (·.val < bs.length)).map Part.reg) s
      ((s.advance.writeRegs bs).complete false) := by
  intro p hp
  cases p with
  | reg r =>
    have hr : bs.length ≤ r.val := by
      by_contra h
      exact hp (by simp; omega)
    simp [Part.Same, State.readV_writeRegs, List.getElem?_eq_none hr]
  | pc => simp at hp
  | await => simp at hp
  | fbChanged => simp at hp
  | latch => exact ⟨rfl, rfl, rfl, rfl⟩
  | host => exact ⟨rfl, rfl⟩
  | index | sp | entry j | dt | st | fb | byte a | cfg => rfl

end Sys2Proof.Machine
end

