-- ==== Sys2Proof/Laws/Interface.lean ====
section
/-! SUPPORT. The control state, the outcome and the ports in the terms their definitions take apart. -/

namespace Sys2Proof.Machine

variable (s : State)

/-- R122: READY is FAULT = 0 and AWAIT = 0. -/
theorem State.control_eq_ready : s.control = .ready ↔ s.fault = false ∧ s.await = false := by
  unfold State.control
  cases s.fault <;> cases s.await <;> simp

/-- R122: AWAIT_KEY is FAULT = 0 and AWAIT = 1. -/
theorem State.control_eq_awaitKey : s.control = .awaitKey ↔ s.fault = false ∧ s.await = true := by
  unfold State.control
  cases s.fault <;> cases s.await <;> simp

/-- R122: FAULTED is FAULT = 1. -/
theorem State.control_eq_faulted : s.control = .faulted ↔ s.fault = true := by
  unfold State.control
  cases s.fault <;> cases s.await <;> simp

@[simp] theorem State.control_takeFault (c : FaultCause) : (s.takeFault c).control = .faulted := rfl
@[simp] theorem State.outcome_takeFault (c : FaultCause) : (s.takeFault c).outcome = .fault c := rfl

/-- A suspended step of a core that is not faulted leads to AWAIT_KEY (R110, R122). -/
theorem State.control_suspend (h : s.fault = false) : s.suspend.control = .awaitKey := by
  simp [State.control, h]

theorem State.outcome_suspend (h : s.fault = false) : s.suspend.outcome = .awaitingKey := by
  simp [State.outcome, h]

/-- A completed instruction of a core that is not faulted leads to READY (R109, R122). -/
theorem State.control_complete (b : Bool) (h : s.fault = false) : (s.complete b).control = .ready := by
  simp [State.control, h]

theorem State.outcome_complete (b : Bool) (h : s.fault = false) : (s.complete b).outcome = .executed := by
  simp [State.outcome, h]

/-- The desired period of a frequency that has a reciprocal (R116). -/
theorem desiredPeriod_of_ne_zero (c : Config) (h : c.cycleHz ≠ 0) : desiredPeriod c = 1 / (c.cycleHz : ℚ) := if_neg h

/-- A frequency of 0 has no reciprocal: the period is the free value (log entry 19). -/
theorem desiredPeriod_of_zero (c : Config) (h : c.cycleHz = 0) : desiredPeriod c = Config.freePeriod := if_pos h

end Sys2Proof.Machine
end

