-- ==== Sys2Proof/Laws/PerInstr.lean ====
section
/-! SUPPORT. Statements per instruction. FixedBits: the encoding of an instruction carries the fixed bits of its row of the
opcode table, `(op & mask) = match` (R84). -/

namespace Sys2Proof.Laws.FixedBits

def Statement (i : Instr) : Prop := encode i &&& (tableRow i).2 = (tableRow i).1

theorem addr_row (a : Nibble) (k : Addr) : ofNibbleAddr a k &&& 0xF000#16 = ofNibbles a 0 0 0 := by
  rw [ofNibbleAddr_eq, ofNibbles_and_F000]

theorem byte_row (a b : Nibble) (k : Byte) : ofNibblesByte a b k &&& 0xF000#16 = ofNibbles a 0 0 0 := by
  rw [ofNibblesByte_eq, ofNibbles_and_F000]

theorem sub_row (a b : Nibble) (k : Byte) : ofNibblesByte a b k &&& 0xF0FF#16 = ofNibblesByte a 0 k := by
  rw [ofNibblesByte_eq, ofNibblesByte_eq, ofNibbles_and_F0FF]

theorem cls : Statement .cls := by unfold Statement; decide
theorem ret : Statement .ret := by unfold Statement; decide
theorem jp (nnn : Addr) : Statement (.jp nnn) := addr_row _ _
theorem call (nnn : Addr) : Statement (.call nnn) := addr_row _ _
theorem seVxKk (x : RegIx) (kk : Byte) : Statement (.seVxKk x kk) := byte_row _ _ _
theorem sneVxKk (x : RegIx) (kk : Byte) : Statement (.sneVxKk x kk) := byte_row _ _ _
theorem seVxVy (x y : RegIx) : Statement (.seVxVy x y) := ofNibbles_and_F00F _ _ _ _
theorem ldVxKk (x : RegIx) (kk : Byte) : Statement (.ldVxKk x kk) := byte_row _ _ _
theorem addVxKk (x : RegIx) (kk : Byte) : Statement (.addVxKk x kk) := byte_row _ _ _
theorem ldVxVy (x y : RegIx) : Statement (.ldVxVy x y) := ofNibbles_and_F00F _ _ _ _
theorem orVxVy (x y : RegIx) : Statement (.orVxVy x y) := ofNibbles_and_F00F _ _ _ _
theorem andVxVy (x y : RegIx) : Statement (.andVxVy x y) := ofNibbles_and_F00F _ _ _ _
theorem xorVxVy (x y : RegIx) : Statement (.xorVxVy x y) := ofNibbles_and_F00F _ _ _ _
theorem addVxVy (x y : RegIx) : Statement (.addVxVy x y) := ofNibbles_and_F00F _ _ _ _
theorem subVxVy (x y : RegIx) : Statement (.subVxVy x y) := ofNibbles_and_F00F _ _ _ _
theorem shrVx (x : RegIx) : Statement (.shrVx x) := ofNibbles_and_F00F _ _ _ _
theorem subnVxVy (x y : RegIx) : Statement (.subnVxVy x y) := ofNibbles_and_F00F _ _ _ _
theorem shlVx (x : RegIx) : Statement (.shlVx x) := ofNibbles_and_F00F _ _ _ _
theorem sneVxVy (x y : RegIx) : Statement (.sneVxVy x y) := ofNibbles_and_F00F _ _ _ _
theorem ldINnn (nnn : Addr) : Statement (.ldINnn nnn) := addr_row _ _
theorem jpV0 (nnn : Addr) : Statement (.jpV0 nnn) := addr_row _ _
theorem rndVxKk (x : RegIx) (kk : Byte) : Statement (.rndVxKk x kk) := byte_row _ _ _
theorem drw (x y : RegIx) (n : Nat) : Statement (.drw x y n) := ofNibbles_and_F000 _ _ _ _
theorem skpVx (x : RegIx) : Statement (.skpVx x) := sub_row _ _ _
theorem sknpVx (x : RegIx) : Statement (.sknpVx x) := sub_row _ _ _
theorem ldVxDt (x : RegIx) : Statement (.ldVxDt x) := sub_row _ _ _
theorem ldVxK (x : RegIx) : Statement (.ldVxK x) := sub_row _ _ _
theorem ldDtVx (x : RegIx) : Statement (.ldDtVx x) := sub_row _ _ _
theorem ldStVx (x : RegIx) : Statement (.ldStVx x) := sub_row _ _ _
theorem addIVx (x : RegIx) : Statement (.addIVx x) := sub_row _ _ _
theorem ldFVx (x : RegIx) : Statement (.ldFVx x) := sub_row _ _ _
theorem ldBVx (x : RegIx) : Statement (.ldBVx x) := sub_row _ _ _
theorem ldMemVx (x : RegIx) : Statement (.ldMemVx x) := sub_row _ _ _
theorem ldVxMem (x : RegIx) : Statement (.ldVxMem x) := sub_row _ _ _

end Sys2Proof.Laws.FixedBits
end

