-- ==== Sys2Proof/Tests/Slice0.lean ====
section
/-! SUPPORT. Tests of the model, each on one word or one step, with the results of spec/95_test_vectors.md (the vector's
name stands in the comment) or worked by hand from the rule named; and, for every obligation with hypotheses, a concrete
state and operands that meet them. -/

namespace Sys2Proof.Tests

open Sys2Proof Sys2Proof.Machine

/-! ## Helpers -/

/-- A field of the next state, if there is one. -/
def peek {α : Type} (o : Host.Outcome State Fault Refusal) (f : State → α) : Option α :=
  match o with
  | .next t => some (f t)
  | .fault _ => none
  | .refused _ => none

/-- The reset state with one step input scheduled: the given keys and random byte, no tick. -/
def given (keys : BitVec 16) (rnd : Byte) : State := { State.reset with inputs := [⟨keys, rnd, 0⟩] }

/-- The reset state with no key pressed and the random byte 0, the notation of spec/95_test_vectors.md. -/
def quiet : State := given 0 0

/-- Registers set one by one. -/
def withRegs (s : State) : List (RegIx × Byte) → State
  | [] => s
  | (r, b) :: rest => withRegs (s.writeV r b) rest

/-- A field after one step of the word placed where the state fetches. -/
def after {α : Type} (s : State) (op : Word) (f : State → α) : Option α := peek (step (s.placeWord op)) f

/-- The latch as the vectors write it. -/
def latch (s : State) : Bool × FaultCause × Word × Word := (s.fault, s.faultCause, s.faultPc, s.faultOp)

/-- The reset state under `ADDR_OVERFLOW = fault`. -/
def strict : State := { quiet with cfg := { defaultConfig with addrOverflow := .fault } }

/-- A state stopped by a fault. -/
def stopped : State := quiet.takeFault .invalidOpcode

/-- A state waiting for a key at 0x200: `F30A` stands there. -/
def waiting : State := { quiet.placeWord 0xF30A with await := true }

/-! ## Well-formedness: an ill-formed term for the one check there is -/

theorem test_illFormed_drw : (Instr.drw 0 0 16).wellFormed = false := rfl
theorem test_wellFormed_drw : (Instr.drw 0xF 0xF 15).wellFormed = true := rfl

/-! ## Decoding: one word per row, written bit by bit from R82 and R85 -/

theorem test_decode_cls : decode 0b0000000011100000 = .ok .cls := rfl
theorem test_decode_ret : decode 0b0000000011101110 = .ok .ret := rfl
theorem test_decode_jp : decode 0b0001101010111100 = .ok (.jp 0xABC) := rfl
theorem test_decode_call : decode 0b0010101010111100 = .ok (.call 0xABC) := rfl
theorem test_decode_seVxKk : decode 0b0011001101000010 = .ok (.seVxKk 0x3 0x42) := rfl
theorem test_decode_sneVxKk : decode 0b0100001101000010 = .ok (.sneVxKk 0x3 0x42) := rfl
theorem test_decode_seVxVy : decode 0b0101000100100000 = .ok (.seVxVy 0x1 0x2) := rfl
theorem test_decode_ldVxKk : decode 0b0110000000001010 = .ok (.ldVxKk 0x0 0x0A) := rfl
theorem test_decode_addVxKk : decode 0b0111000000000101 = .ok (.addVxKk 0x0 0x05) := rfl
theorem test_decode_ldVxVy : decode 0b1000000100100000 = .ok (.ldVxVy 0x1 0x2) := rfl
theorem test_decode_orVxVy : decode 0b1000000100100001 = .ok (.orVxVy 0x1 0x2) := rfl
theorem test_decode_andVxVy : decode 0b1000000100100010 = .ok (.andVxVy 0x1 0x2) := rfl
theorem test_decode_xorVxVy : decode 0b1000000100100011 = .ok (.xorVxVy 0x1 0x2) := rfl
theorem test_decode_addVxVy : decode 0b1000000100100100 = .ok (.addVxVy 0x1 0x2) := rfl
theorem test_decode_subVxVy : decode 0b1000000100100101 = .ok (.subVxVy 0x1 0x2) := rfl
theorem test_decode_shrVx : decode 0b1000000110100110 = .ok (.shrVx 0x1) := rfl
theorem test_decode_subnVxVy : decode 0b1000000100100111 = .ok (.subnVxVy 0x1 0x2) := rfl
theorem test_decode_shlVx : decode 0b1000101001011110 = .ok (.shlVx 0xA) := rfl
theorem test_decode_sneVxVy : decode 0b1001000100100000 = .ok (.sneVxVy 0x1 0x2) := rfl
theorem test_decode_ldINnn : decode 0b1010111111111111 = .ok (.ldINnn 0xFFF) := rfl
theorem test_decode_jpV0 : decode 0b1011001100000000 = .ok (.jpV0 0x300) := rfl
theorem test_decode_rndVxKk : decode 0b1100001100001111 = .ok (.rndVxKk 0x3 0x0F) := rfl
theorem test_decode_drw : decode 0b1101000000010101 = .ok (.drw 0x0 0x1 5) := rfl
theorem test_decode_skpVx : decode 0b1110001010011110 = .ok (.skpVx 0x2) := rfl
theorem test_decode_sknpVx : decode 0b1110001010100001 = .ok (.sknpVx 0x2) := rfl
theorem test_decode_ldVxDt : decode 0b1111001100000111 = .ok (.ldVxDt 0x3) := rfl
theorem test_decode_ldVxK : decode 0b1111001100001010 = .ok (.ldVxK 0x3) := rfl
theorem test_decode_ldDtVx : decode 0b1111001100010101 = .ok (.ldDtVx 0x3) := rfl
theorem test_decode_ldStVx : decode 0b1111001100011000 = .ok (.ldStVx 0x3) := rfl
theorem test_decode_addIVx : decode 0b1111000100011110 = .ok (.addIVx 0x1) := rfl
theorem test_decode_ldFVx : decode 0b1111001000101001 = .ok (.ldFVx 0x2) := rfl
theorem test_decode_ldBVx : decode 0b1111000000110011 = .ok (.ldBVx 0x0) := rfl
theorem test_decode_ldMemVx : decode 0b1111111101010101 = .ok (.ldMemVx 0xF) := rfl
theorem test_decode_ldVxMem : decode 0b1111000101100101 = .ok (.ldVxMem 0x1) := rfl

/-- K6: the fixed nibble of 5xy0 is not ignored. -/
theorem test_decode_5121 : decode 0x5121 = .error (.invalidOpcode 0x5121) := rfl
/-- K5: SYS is no instruction. -/
theorem test_decode_0123 : decode 0x0123 = .error (.invalidOpcode 0x0123) := rfl
/-- R80: one byte is no instruction. -/
theorem test_decode_truncated : decodeBytes [0x12] = .error .truncated := rfl
/-- R62: the first byte is the high byte. -/
theorem test_decode_tableWord : decodeTableWord 16 0x7005 = some (.addVxKk 0x0 0x05) := rfl
/-- R92: SHL is written with y = 0. -/
theorem test_encode_shl : encode (.shlVx 0xA) = 0x8A0E := rfl
/-- R62: the bytes of `DRW V0, V1, 5`. -/
theorem test_encodeBytes_drw : encodeBytes (.drw 0x0 0x1 5) = [0xD0, 0x15] := rfl

/-! ## Control flow (C1 to C19) -/

/-- C1. -/
theorem test_jp : after quiet 0x1ABC (·.pc) = some 0xABC := by decide
/-- C3. -/
theorem test_call : after { quiet with sp := 15 } 0x2ABC (fun t => (t.stack[15], t.sp, t.pc)) = some (0x202, 16, 0xABC) := by
  decide
/-- C4. -/
theorem test_call_full : after { quiet with sp := 16 } 0x2ABC (fun t => (latch t, t.pc, t.sp))
    = some ((true, .stackOverflow, 0x200, 0x2ABC), 0x200, 16) := by decide
/-- C5. -/
theorem test_ret : after { quiet with sp := 2, stack := (quiet.stack.set 0 0x222).set 1 0x456 } 0x00EE
    (fun t => (t.pc, t.sp, t.stack[1])) = some (0x456, 1, 0x456) := by decide
/-- C6. -/
theorem test_ret_empty : after quiet 0x00EE (fun t => (latch t, t.pc))
    = some ((true, .stackUnderflow, 0x200, 0x00EE), 0x200) := by decide
/-- C7. -/
theorem test_jpV0 : after (withRegs quiet [(0, 0xFF)]) 0xBFFF (·.pc) = some 0x0FE := by decide
/-- C9. -/
theorem test_seVxKk_taken : after (withRegs quiet [(3, 0x42)]) 0x3342 (·.pc) = some 0x204 := by decide
/-- C17: PC is not reduced, and the next fetch is at 0x200. -/
theorem test_seVxKk_top : after { quiet with pc := 0xFFC } 0x3000 (fun t => (t.pc, t.fetchAddr)) = some (0x1000, 0x200) := by
  decide
/-- C11. -/
theorem test_sneVxKk_taken : after (withRegs quiet [(3, 0x42)]) 0x4300 (·.pc) = some 0x204 := by decide
/-- C12. -/
theorem test_sneVxKk_not : after (withRegs quiet [(3, 0x42)]) 0x4342 (·.pc) = some 0x202 := by decide
/-- C13. -/
theorem test_seVxVy_taken : after (withRegs quiet [(1, 9)]) 0x5110 (·.pc) = some 0x204 := by decide
/-- C15. -/
theorem test_seVxVy_not : after (withRegs quiet [(1, 7), (2, 8)]) 0x5120 (·.pc) = some 0x202 := by decide
/-- C14. -/
theorem test_sneVxVy_not : after (withRegs quiet [(1, 9)]) 0x9110 (·.pc) = some 0x202 := by decide
/-- C16. -/
theorem test_sneVxVy_taken : after (withRegs quiet [(1, 7), (2, 8)]) 0x9120 (·.pc) = some 0x204 := by decide

/-! ## Loads and ALU (A1 to A30) -/

/-- A1. -/
theorem test_ldVxKk : after quiet 0x600A (fun t => (t.readV 0, t.pc)) = some (0x0A, 0x202) := by decide
/-- A2. -/
theorem test_ldVxVy : after (withRegs quiet [(2, 0x99)]) 0x8120 (·.readV 1) = some 0x99 := by decide
/-- A3: no flag. -/
theorem test_addVxKk : after (withRegs quiet [(0, 0x02), (0xF, 0x55)]) 0x70FF (fun t => (t.readV 0, t.readV 0xF))
    = some (0x01, 0x55) := by decide
/-- A4. -/
theorem test_addVxKk_vf : after (withRegs quiet [(0xF, 0xFF)]) 0x7F01 (·.readV 0xF) = some 0x00 := by decide
/-- A5: VF is not reset. -/
theorem test_orVxVy : after (withRegs quiet [(1, 0x0C), (2, 0x03), (0xF, 0x77)]) 0x8121
    (fun t => (t.readV 1, t.readV 0xF)) = some (0x0F, 0x77) := by decide
/-- A6. -/
theorem test_andVxVy : after (withRegs quiet [(1, 0x0C), (2, 0x06)]) 0x8122 (·.readV 1) = some 0x04 := by decide
/-- A7. -/
theorem test_xorVxVy : after (withRegs quiet [(1, 0x5A)]) 0x8113 (·.readV 1) = some 0x00 := by decide
/-- A10: the sum is exactly 256. -/
theorem test_addVxVy : after (withRegs quiet [(1, 0x80), (2, 0x80)]) 0x8124 (fun t => (t.readV 1, t.readV 0xF))
    = some (0x00, 1) := by decide
/-- A12: y = F is read before the flag is written. -/
theorem test_addVxVy_vf : after (withRegs quiet [(1, 0x01), (0xF, 0xFF)]) 0x81F4 (fun t => (t.readV 1, t.readV 0xF))
    = some (0x00, 1) := by decide
/-- A15: equal operands leave the flag 0. -/
theorem test_subVxVy_equal : after (withRegs quiet [(1, 5), (2, 5)]) 0x8125 (fun t => (t.readV 1, t.readV 0xF))
    = some (0x00, 0) := by decide
/-- A16. -/
theorem test_subVxVy_borrow : after (withRegs quiet [(1, 0), (2, 1)]) 0x8125 (fun t => (t.readV 1, t.readV 0xF))
    = some (0xFF, 0) := by decide
/-- A23: y is not read. -/
theorem test_shrVx : after (withRegs quiet [(1, 0x04), (0xA, 0xFF)]) 0x81A6 (fun t => (t.readV 1, t.readV 0xF))
    = some (0x02, 0) := by decide
/-- A24: the flag is written last. -/
theorem test_shrVx_vf : after (withRegs quiet [(0xF, 0x03)]) 0x8F06 (·.readV 0xF) = some 1 := by decide
/-- A18. -/
theorem test_subnVxVy : after (withRegs quiet [(1, 3), (2, 5)]) 0x8127 (fun t => (t.readV 1, t.readV 0xF))
    = some (0x02, 1) := by decide
/-- A20. -/
theorem test_subnVxVy_borrow : after (withRegs quiet [(1, 5), (2, 3)]) 0x8127 (fun t => (t.readV 1, t.readV 0xF))
    = some (0xFE, 0) := by decide
/-- A25. -/
theorem test_shlVx : after (withRegs quiet [(1, 0x80)]) 0x810E (fun t => (t.readV 1, t.readV 0xF)) = some (0x00, 1) := by
  decide
/-- A26. -/
theorem test_shlVx_vf : after (withRegs quiet [(0xF, 0x40)]) 0x8F0E (·.readV 0xF) = some 0 := by decide
/-- A30. -/
theorem test_rndVxKk : after (given 0 0xA7) 0xC10F (·.readV 1) = some 0x07 := by decide

/-! ## Display (D1 to D10) -/

/-- D9 and D10: CLS turns a pixel off and touches the display. -/
theorem test_cls : after { quiet with fb := togglePixel quiet.fb 3 4 } 0x00E0 (fun t => (pixelAt t.fb 3 4, t.fbChanged))
    = some (false, true) := by decide
/-- D5: one pixel is turned off. -/
theorem test_drw_hit : after (({ quiet with index := 0x300, fb := togglePixel (togglePixel quiet.fb 0 1) 0 5 } : State).writeByte
    0x300 0xC0) 0xD011 (fun t => (pixelAt t.fb 0 0, pixelAt t.fb 0 1, pixelAt t.fb 0 5, t.readV 0xF))
    = some (true, false, true, 1) := by decide
/-- D8: the second sprite byte is read from 0x000. -/
theorem test_drw_wrap : after ((({ quiet with index := 0xFFF } : State).writeByte 0xFFF 0x80).writeByte 0x000 0x40) 0xD012
    (fun t => (pixelAt t.fb 0 0, pixelAt t.fb 1 1, t.readV 0xF)) = some (true, true, 0) := by decide

/-- Log entry 18, worked by hand from the loop of R181: sprite 0x80 at the origin of a frame with only FB[0][0] on. The first
draw turns the pixel off with VF = 1, the second turns it on with VF = 0, where R189's last sentence would have VF = 1. -/
theorem test_drw_twice_on : ∀ s : State,
    s = ({ quiet with index := 0x300, fb := togglePixel quiet.fb 0 0 } : State).writeByte 0x300 0x80 →
      peek (exec (.drw 0 0 1) s) (fun t => (pixelAt t.fb 0 0, t.readV 0xF)) = some (false, 1)
      ∧ peek (exec (.drw 0 0 1) { s with fb := quiet.fb }) (fun t => (pixelAt t.fb 0 0, t.readV 0xF)) = some (true, 0) := by
  rintro s rfl
  decide

/-! ## Keys, timers and the key wait (T1 to T15) -/

/-- T5. -/
theorem test_skpVx : after (withRegs (given 0x8000 0) [(2, 15)]) 0xE29E (·.pc) = some 0x204 := by decide
/-- T6. -/
theorem test_skpVx_range : after (withRegs (given 0xFFFF 0) [(2, 16)]) 0xE29E (fun t => (latch t, t.pc))
    = some ((true, .keyRange, 0x200, 0xE29E), 0x200) := by decide
/-- T3. -/
theorem test_sknpVx_taken : after (withRegs quiet [(2, 5)]) 0xE2A1 (·.pc) = some 0x204 := by decide
/-- T4. -/
theorem test_sknpVx_not : after (withRegs (given 0x0020 0) [(2, 5)]) 0xE2A1 (·.pc) = some 0x202 := by decide
/-- T7. -/
theorem test_ldVxK_wait : after (withRegs quiet [(3, 0x77)]) 0xF30A (fun t => (t.outcome, t.pc, t.readV 3, t.await))
    = some (.awaitingKey, 0x200, 0x77, true) := by decide
/-- T8: the lowest key. -/
theorem test_ldVxK_key : after (withRegs (given 0x8012 0) [(3, 0x77)]) 0xF30A (fun t => (t.readV 3, t.pc, t.await))
    = some (0x01, 0x202, false) := by decide
/-- T10. -/
theorem test_ldVxDt : after { quiet with dt := 0x3C } 0xF307 (·.readV 3) = some 0x3C := by decide
/-- T11. -/
theorem test_ldDtVx : after (withRegs quiet [(3, 0x3C)]) 0xF315 (·.dt) = some 0x3C := by decide
/-- T12. -/
theorem test_ldStVx : after (withRegs quiet [(3, 2)]) 0xF318 (fun t => (t.st, t.buzzer, t.tick.tick.buzzer))
    = some (2, true, false) := by decide
/-- T15: a tick of a faulted core. -/
theorem test_tick_faulted : (({ stopped with dt := 5 } : State).tick.dt, latch stopped.tick)
    = (4, true, .invalidOpcode, 0x200, 0x0000) := by decide
/-- T13 and T14. -/
theorem test_tick : ((({ quiet with st := 1 } : State).tick.tick.st), ({ quiet with dt := 0xFF } : State).tick.dt)
    = (0, 0xFE) := by decide

/-! ## Index register and memory (X1 to X12) -/

/-- X1. -/
theorem test_ldINnn : after quiet 0xAFFF (·.index) = some 0xFFF := by decide
/-- X2: wrap, no flag. -/
theorem test_addIVx : after (withRegs { quiet with index := 0xFFF } [(1, 1)]) 0xF11E (fun t => (t.index, t.readV 0xF))
    = some (0x000, 0) := by decide
/-- X5: the high nibble is ignored. -/
theorem test_ldFVx : after (withRegs quiet [(2, 0x1F)]) 0xF229 (·.index) = some 0x09B := by decide
/-- X8. -/
theorem test_ldBVx : after (withRegs { quiet with index := 0xFFF } [(0, 123)]) 0xF033
    (fun t => (t.readByte 0xFFF, t.readByte 0x000, t.readByte 0x001, t.index)) = some (1, 2, 3, 0xFFF) := by decide
/-- X8 under ADDR_OVERFLOW = fault: no byte is stored. -/
theorem test_ldBVx_strict : after (withRegs { strict with index := 0xFFF } [(0, 123)]) 0xF033
    (fun t => (latch t, t.readByte 0xFFF)) = some ((true, .memRange, 0x200, 0xF033), 0) := by decide
/-- X9. -/
theorem test_ldMemVx : after (withRegs { quiet with index := 0x300 } [(0, 0xAA), (1, 0xBB)]) 0xF055
    (fun t => (t.readByte 0x300, t.readByte 0x301)) = some (0xAA, 0) := by decide
/-- X10: VF is stored too. -/
theorem test_ldMemVx_vf : after (withRegs { quiet with index := 0x300 } [(0xE, 0xEE), (0xF, 0xFF)]) 0xFF55
    (fun t => (t.readByte 0x30E, t.readByte 0x30F, t.index)) = some (0xEE, 0xFF, 0x300) := by decide
/-- X12. -/
theorem test_ldVxMem : after ((({ quiet with index := 0xFFF } : State).writeByte 0xFFF 0x12).writeByte 0x000 0x34) 0xF165
    (fun t => (t.readV 0, t.readV 1, t.readV 2)) = some (0x12, 0x34, 0) := by decide

/-! ## Cycle, faults, reset and the ports (F1 to F9) -/

/-- F2: a faulted core stays as it is. -/
theorem test_faulted_step : peek (step stopped) (fun t => (latch t, t.pc)) = some ((true, .invalidOpcode, 0x200, 0x0000), 0x200) := by
  decide
/-- F3, second step. -/
theorem test_reserved_fetch : peek (step { quiet with pc := 0x000 }) (fun t => (latch t, t.pc))
    = some ((true, .reservedFetch, 0x000, 0x0000), 0x000) := by decide
/-- F5: PC keeps its value before the wrap. -/
theorem test_fault_pc : after { quiet with pc := 0xFFE } 0x5121 (fun t => (latch t, t.pc))
    = some ((true, .invalidOpcode, 0x200, 0x5121), 0xFFE) := by decide
/-- F6. -/
theorem test_rst : (latch stopped.rst, stopped.rst.pc, stopped.rst.readByte 0x050) = ((false, .none, 0, 0), 0x200, 0xF0) := by
  decide
/-- F7. -/
theorem test_empty_memory : peek (step State.reset) latch = some (true, .invalidOpcode, 0x200, 0x0000) := by decide
/-- F9: the step reads DT, then the tick counts it down. -/
theorem test_step_then_tick : peek (transact ⟨false, true, 0, 0, true, false, 0, 0⟩ ({ State.reset with dt := 1 }.placeWord 0xF007)) (fun t => (t.readV 0, t.dt))
    = some (1, 0) := by decide
/-- R121 and R284: the load port. -/
theorem test_load : ((State.reset.loadImage [0x60, 0x0A]).readByte 0x200, (State.reset.loadImage [0x60, 0x0A]).readByte 0x201)
    = (0x60, 0x0A) := by decide
/-- withFetchWord: the next step runs the placed word. -/
theorem test_withFetchWord : peek (step (State.reset.withFetchWord 16 0x600A)) (·.readV 0) = some 0x0A := by decide
/-- R114: the pixels of the fb port, row by row: FB[1][2] is number 66. -/
theorem test_framePixels : (framePixels (togglePixel blankFrame 1 2))[66]? = some true := by decide

/-! ## Witnesses: a state and operands for the hypotheses of each obligation, a boundary for each clause -/

theorem test_witness_DecodeOfEncode : (Instr.drw 0xF 0xF 15).wellFormed = true ∧ (Instr.drw 0 0 0).wellFormed = true := by decide
theorem test_witness_EncodeOfDecode : decode 0x8A56 = .ok (.shrVx 0xA) ∧ decode 0xD01F = .ok (.drw 0 1 15) := ⟨rfl, rfl⟩
theorem test_witness_DecodeSelects : (0x8A56#16 &&& 0xF00F = 0x8006)
    ∧ ∀ row ∈ tableRows, (0x0000#16 : Word) &&& row.2 ≠ row.1 := by
  simp [tableRows, tableRow]
theorem test_witness_InvalidWords : ∀ op ∈ ([0x0000, 0x5121, 0x8AB8, 0x9121, 0xE09F, 0xF0FF] : List Word),
    decode op = .error (.invalidOpcode op) := by
  intro op h
  simp only [List.mem_cons, List.not_mem_nil, or_false] at h
  rcases h with rfl | rfl | rfl | rfl | rfl | rfl <;> rfl
theorem test_witness_EncodeIsMatch : (Instr.ldVxMem 0xF).wellFormed = true := rfl
theorem test_witness_FetchAddress : 0xFFE ≤ ({ quiet with pc := 0xFFE } : State).pc.toNat
    ∧ ({ quiet with pc := 0xFFD } : State).pc.toNat < 0xFFE := by decide
theorem test_witness_StepRuns : (quiet.placeWord 0x600A).fault = false ∧ 0x200 ≤ (quiet.placeWord 0x600A).fetchAddr.toNat
    ∧ decode (quiet.placeWord 0x600A).fetchWord = .ok (.ldVxKk 0 0x0A) := by decide
theorem test_witness_FaultedCore : stopped.fault = true := rfl
theorem test_witness_ReservedFetch : ({ quiet with pc := 0x1FF } : State).fault = false
    ∧ ({ quiet with pc := 0x1FF } : State).fetchAddr.toNat < 0x200 := by decide
theorem test_witness_StepDecodes : quiet.fault = false ∧ 0x200 ≤ quiet.fetchAddr.toNat
    ∧ (∀ row ∈ tableRows, quiet.fetchWord &&& row.2 ≠ row.1)
    ∧ (quiet.placeWord 0x600A).fetchWord &&& 0xF000 = 0x6000 := by
  have h : quiet.fetchWord = 0x0000 := by decide
  refine ⟨by decide, by decide, ?_, by decide⟩
  rw [h]
  exact test_witness_DecodeSelects.2
theorem test_witness_StepOutcome : stepFault quiet = some .invalidOpcode ∧ stepFault waiting = none ∧ Suspends waiting
    ∧ stepFault (quiet.placeWord 0x600A) = none ∧ ¬ Suspends (quiet.placeWord 0x600A) := by
  refine ⟨by decide, by decide, ⟨⟨3, by decide⟩, by decide⟩, by decide, fun h => ?_⟩
  obtain ⟨⟨x, hx⟩, -⟩ := h
  have : decode (quiet.placeWord 0x600A).fetchWord = .ok (.ldVxKk 0 0x0A) := by decide
  rw [this] at hx
  cases hx
theorem test_witness_FaultsArePrecise : ∃ t, cycle quiet = .next t ∧ quiet.fault = false ∧ t.fault = true :=
  ⟨_, rfl, by decide, by decide⟩
theorem test_witness_StatusBits : (waiting.fault = true → waiting.await = false ∧ waiting.fbChanged = false)
    ∧ ∃ t, cycle waiting = .next t ∧ t.await = true := ⟨by decide, _, rfl, by decide⟩
theorem test_witness_EveryStepKeepsInv : waiting.Inv ∧ stopped.Inv ∧ ∃ t, step waiting = .next t :=
  ⟨by constructor <;> decide, by constructor <;> decide, _, rfl⟩
theorem test_witness_RstGives : ({ defaultConfig with fontBase := 0x1B0 } : Config).Legal
    ∧ ({ defaultConfig with fontBase := 0x000 } : Config).Legal := by decide
theorem test_witness_EachPart : peek (exec (.ldINnn 0x300) quiet) (fun t => decide (t.index ≠ quiet.index)) = some true
    ∧ peek (exec (.call 0x300) quiet) (fun t => decide (t.sp ≠ quiet.sp)) = some true
    ∧ peek (exec (.ldDtVx 1) (withRegs quiet [(1, 5)])) (fun t => decide (t.dt ≠ 0)) = some true
    ∧ peek (exec (.ldStVx 1) (withRegs quiet [(1, 5)])) (fun t => decide (t.st ≠ 0)) = some true
    ∧ peek (exec (.ldMemVx 1) (withRegs quiet [(1, 5)])) (fun t => decide (t.mem ≠ quiet.mem)) = some true := by decide
theorem test_witness_VfChanges : peek (exec (.addVxVy 1 1) (withRegs quiet [(1, 0xFF)])) (fun t => decide (t.readV vf ≠ 0))
    = some true := by decide
theorem test_witness_Stale : quiet.SameButStale { quiet with stack := quiet.stack.set 3 0x222 }
    ∧ quiet ≠ { quiet with stack := quiet.stack.set 3 0x222 }
    ∧ State.SameButStale { quiet with sp := 3 } { quiet with sp := 3, stack := quiet.stack.set 3 0x222 } :=
  ⟨⟨rfl, by decide⟩, by decide, ⟨rfl, by decide⟩⟩
theorem test_witness_ParametersNeverChange : ∃ t, step quiet = .next t := ⟨_, rfl⟩
theorem test_witness_StoredInstruction : ∃ t, ({ quiet with index := 0x202 } : State).BlockFits (1 + 1)
    ∧ exec (.ldMemVx 1) { quiet with index := 0x202 } = .next t ∧ t.fetchAddr.toNat = 0x202 := ⟨_, by decide, rfl, by decide⟩
theorem test_witness_SelfJump : ∃ s : State, s.fault = false ∧ s.await = false ∧ s.fbChanged = false
    ∧ s.pc = (0x208 : Addr).setWidth 16 ∧ decode s.fetchWord = .ok (.jp 0x208) :=
  ⟨{ quiet with pc := 0x208 }.placeWord 0x1208, by decide⟩
theorem test_witness_ControlStates : stopped.control = .faulted ∧ waiting.control = .awaitKey ∧ quiet.control = .ready
    ∧ stepFault quiet = some .invalidOpcode ∧ stepFault waiting = none ∧ stepFault (quiet.placeWord 0x600A) = none
    ∧ peek (cycle quiet) State.control = some .faulted ∧ peek (cycle waiting) State.control = some .awaitKey
    ∧ peek (cycle (quiet.placeWord 0x600A)) State.control = some .ready := by decide
theorem test_witness_JumpTops : (0xFFE : Addr).toNat = 0xFFE ∧ ((0xFF : Byte).toNat + (0xF00 : Addr).toNat) % 4096 = 0xFFF := by
  decide
theorem test_witness_Call : ({ quiet with sp := 0 } : State).sp.toNat = (0 : Fin 16).val
    ∧ ({ quiet with sp := 15 } : State).sp.toNat = (15 : Fin 16).val ∧ ({ quiet with sp := 16 } : State).sp.toNat = 16 := by
  decide
theorem test_witness_Ret : ({ quiet with sp := 1 } : State).sp.toNat = (0 : Fin 16).val + 1
    ∧ ({ quiet with sp := 16 } : State).sp.toNat = (15 : Fin 16).val + 1 ∧ quiet.sp.toNat = 0 := by decide
theorem test_witness_CallThenRet : ∃ t, ({ quiet with sp := 15 } : State).sp.toNat < 16
    ∧ exec (.call 0x300) { quiet with sp := 15 } = .next t := ⟨_, by decide, rfl⟩
theorem test_witness_FlagClauses : (0 : RegIx) ≠ vf ∧ (0xFF : Byte).toNat + (0x01 : Byte).toNat > 255
    ∧ ¬ (0xFE : Byte).toNat + (0x01 : Byte).toNat > 255 := by decide
theorem test_witness_Drw : ({ quiet with index := 0xFFF } : State).BlockFits 15
    ∧ ({ strict with index := 0xFF1 } : State).BlockFits 15 ∧ ¬ ({ strict with index := 0xFF2 } : State).BlockFits 15 := by
  decide
theorem test_witness_DrwHit : ∃ s : State, s.BlockFits 1 ∧ pixelAt s.fb 0 0 = true ∧ spriteBit s 0 0 1 0 0 = true :=
  ⟨({ quiet with index := 0x300, fb := togglePixel quiet.fb 0 0 } : State).writeByte 0x300 0x80, by decide⟩
theorem test_witness_DrawTwice : ∃ s t s2 : State, s.BlockFits 1 ∧ exec (.drw 0 0 1) s = .next t ∧ s2.fb = t.fb
    ∧ s2.cfg = s.cfg ∧ s2.index = s.index ∧ s2.readV 0 = s.readV 0 ∧ ∀ a ∈ s.span 1, s2.readByte a = s.readByte a :=
  ⟨{ quiet with index := 0x050 }, _, { quiet with index := 0x050, fb := (drawSprite quiet.fb 0 0 [0xF0]).fb },
    by decide, rfl, by decide, rfl, rfl, rfl, fun _ _ => rfl⟩
/-- The frame of the DrawTwice witness is off under its sprite: the clause where R189's last sentence holds. -/
theorem test_witness_DrawTwiceOff : ∀ r c, pixelAt ({ quiet with index := 0x050 } : State).fb r c = false :=
  pixelAt_blankFrame
/-- And a sprite bit is set there: the glyph 0 at the origin. -/
theorem test_witness_DrawTwiceBit : spriteBit { quiet with index := 0x050 } 0 0 1 0 0 = true := by decide
theorem test_witness_ClearThenDraw : ∃ t s2 u : State, exec .cls quiet = .next t ∧ s2.fb = t.fb ∧ s2.BlockFits 5
    ∧ exec (.drw 0 0 5) s2 = .next u :=
  ⟨_, { quiet with index := 0x082 }, _, rfl, by decide, by decide, rfl⟩
theorem test_witness_FrameChanges : peek (exec .cls { quiet with fb := togglePixel quiet.fb 0 0 })
    (fun t => decide (t.fb ≠ togglePixel quiet.fb 0 0)) = some true := by decide
theorem test_witness_KeySkips : ((withRegs quiet [(2, 15)]).readV 2).toNat ≤ 0x0F
    ∧ 0x0F < ((withRegs quiet [(2, 16)]).readV 2).toNat := by decide
theorem test_witness_KeyWait : quiet.keys = 0 ∧ (given 0x8000 0).keys.getLsbD 15 = true
    ∧ ∀ j : RegIx, j < 15 → (given 0x8000 0).keys.getLsbD j.val = false := by decide
theorem test_witness_KeyWaitStates : waiting.fault = false ∧ 0x200 ≤ waiting.fetchAddr.toNat
    ∧ decode waiting.fetchWord = .ok (.ldVxK 3) ∧ waiting.control = .awaitKey ∧ waiting.keys = 0 := by decide
theorem test_witness_KeyWaitPressed : ({ waiting with inputs := [⟨0x8012, 0, 0⟩] } : State).keys ≠ 0
    ∧ decode ({ waiting with inputs := [⟨0x8012, 0, 0⟩] } : State).fetchWord = .ok (.ldVxK 3) := by decide
theorem test_witness_Legal : quiet.cfg.Legal := by decide
theorem test_witness_StoreDigits : ({ strict with index := 0xFFD } : State).BlockFits 3
    ∧ ¬ ({ strict with index := 0xFFE } : State).BlockFits 3 ∧ ({ quiet with index := 0xFFF } : State).BlockFits 3 := by decide
theorem test_witness_Registers : ({ strict with index := 0xFFF } : State).BlockFits ((0 : RegIx).val + 1)
    ∧ ({ strict with index := 0xFF0 } : State).BlockFits ((15 : RegIx).val + 1)
    ∧ ¬ ({ strict with index := 0xFF1 } : State).BlockFits ((15 : RegIx).val + 1) := by decide
theorem test_witness_MemRange : strict.cfg.addrOverflow = .fault ∧ 0xFFF < ({ strict with index := 0xFFF } : State).index.toNat + 2 - 1
    ∧ 0xFFF < ({ strict with index := 0xFFE } : State).index.toNat + 2
    ∧ 0xFFF < ({ strict with index := 0xFFF } : State).index.toNat + (1 : RegIx).val := by decide
theorem test_witness_MemRangeWrap : quiet.cfg.addrOverflow = .wrap ∧ quiet.fault = false ∧ ∃ t, cycle quiet = .next t :=
  ⟨rfl, rfl, _, rfl⟩
theorem test_witness_Transaction : ∃ a b c : Transaction, a.rst = true ∧ b.rst = false ∧ b.stepReq = false ∧ c.rst = false
    ∧ c.stepReq = true :=
  ⟨⟨true, true, 0, 0, true, true, 0, 0⟩, ⟨false, false, 0, 0, true, true, 0, 0⟩, ⟨false, true, 0, 0, true, true, 0, 0⟩, by decide⟩
theorem test_witness_LoadPort : (List.replicate 3584 (0xFF : Byte)).length ≤ 3584 := List.length_replicate.le
theorem test_witness_FrameUpdate : (quiet.placeWord 0x00E0).fault = false ∧ stepFault (quiet.placeWord 0x00E0) = none
    ∧ decode (quiet.placeWord 0x00E0).fetchWord = .ok .cls ∧ stepFault quiet ≠ none := by decide
theorem test_witness_Outputs : stopped.outcome = .fault .invalidOpcode ∧ waiting.outcome = .awaitingKey
    ∧ quiet.outcome = .executed ∧ defaultConfig.cycleHz ≠ 0 := by decide

end Sys2Proof.Tests
end

section
/-! SUPPORT. Every step keeps the invariant of the machine (O15). The parts an instruction writes and the invariant bounds
(memory, PC, SP, the stack) are kept by each update an instruction is made of; the status bits and the latch are settled by
the way the step ends. -/

namespace Sys2Proof.Machine

/-- The bounds of the invariant on the parts a completed instruction writes. -/
structure InBounds (c : Config) (m : Memory) (pc : Word) (sp : BitVec 5) (stack : Vector Word 16) : Prop where
  memory : Memory.wf c m = true
  pcRange : pc.toNat ≤ 0x1001
  spRange : sp.toNat ≤ 16
  entryRange : ∀ j : Fin 16, (stack[j]).toNat ≤ 0xFFF

/-- A state whose written parts are in bounds. It speaks of these parts only, so a rule that writes none of them keeps it
by definition. -/
def State.Bounded (s : State) : Prop := InBounds s.cfg s.mem s.pc s.sp s.stack

theorem State.Inv.bounded {s : State} (h : s.Inv) : s.Bounded := ⟨h.memory, h.pcRange, h.spRange, h.entryRange⟩

/-! ### The updates of the state -/

section
variable {s : State}

theorem InBounds.withPc {c : Config} {m : Memory} {pc : Word} {sp : BitVec 5} {stack : Vector Word 16}
    (h : InBounds c m pc sp stack) {pc' : Word} (hpc : pc'.toNat ≤ 0x1001) : InBounds c m pc' sp stack :=
  ⟨h.memory, hpc, h.spRange, h.entryRange⟩

theorem State.Bounded.advance (h : s.Bounded) : s.advance.Bounded := by
  have hfa := s.fetchAddr_lt
  refine h.withPc ?_
  rw [State.advance_pc, State.fetchAddr_add_two]
  omega

/-- The bound 0x1001 of R34: the largest fetch address 0xFFD and a skip. -/
theorem State.Bounded.skipIf (h : s.Bounded) (c : Bool) : (s.advance.skipIf c).Bounded := by
  have hfa := s.fetchAddr_lt
  cases c with
  | false => exact h.advance
  | true =>
    refine h.withPc ?_
    rw [State.skipIf_pc, if_pos rfl, State.advance_pc, State.fetchAddr_add_four]
    omega

theorem State.Bounded.jump (h : s.Bounded) (a : Addr) : (s.jump a).Bounded := by
  have ha := a.isLt
  refine h.withPc ?_
  rw [State.jump_pc, BitVec.toNat_setWidth]
  omega

theorem State.Bounded.push (h : s.Bounded) (hsp : s.sp ≠ 16) {w : Word} (hw : w.toNat ≤ 0xFFF) : (s.push w).Bounded where
  memory := h.memory
  pcRange := h.pcRange
  spRange := by
    have hle := h.spRange
    rw [State.push_sp]
    bv_omega
  entryRange j := by
    have hj := h.entryRange j
    simp only [State.push_stack, Fin.getElem_fin, Vector.getElem_setIfInBounds] at hj ⊢
    split
    · exact hw
    · exact hj

theorem State.Bounded.popPc (h : s.Bounded) (hsp : s.sp ≠ 0) : s.popPc.Bounded := by
  have hle := h.spRange
  have htop : (s.sp - 1).toNat < 16 := by bv_omega
  refine ⟨h.memory, ?_, htop.le, h.entryRange⟩
  have hentry := h.entryRange ⟨_, htop⟩
  rw [State.popPc_pc, Vector.getElem?_eq_getElem htop, Option.getD_some]
  exact hentry.trans (by decide)

theorem State.Bounded.writeBytes (h : s.Bounded) (l : List (Addr × Byte)) : (s.writeBytes l).Bounded where
  memory := s.writeBytes_wf l h.memory
  pcRange := by rw [State.writeBytes_pc]; exact h.pcRange
  spRange := by rw [State.writeBytes_sp]; exact h.spRange
  entryRange := by rw [State.writeBytes_stack]; exact h.entryRange

theorem State.Bounded.suspend (h : s.Bounded) : s.suspend.Bounded := h.withPc (s.fetchAddr_lt.le.trans (by decide))

end

/-- Every instruction keeps the bounds, however it ends. -/
theorem exec_bounded (i : Instr) (s : State) (h : s.Bounded) : ∃ t, exec i s = .next t ∧ t.Bounded := by
  cases i with
  | ret =>
    by_cases hsp : s.sp = 0
    · exact ⟨_, exec_ret_empty s hsp, h⟩
    · exact ⟨_, exec_ret_pop s hsp, h.advance.popPc hsp⟩
  | call a =>
    by_cases hsp : s.sp = 16
    · exact ⟨_, exec_call_full s a hsp, h⟩
    · have hfa := s.fetchAddr_lt
      have hra : (s.fetchAddr + 2).toNat ≤ 0xFFF := by rw [State.fetchAddr_add_two]; omega
      exact ⟨_, exec_call_push s a hsp, (h.advance.push hsp hra).jump a⟩
  | jp a => exact ⟨_, exec_jp s a, h.advance.jump a⟩
  | jpV0 a => exact ⟨_, exec_jpV0 s a, h.advance.jump _⟩
  | seVxKk x kk => exact ⟨_, exec_seVxKk s x kk, h.skipIf _⟩
  | sneVxKk x kk => exact ⟨_, exec_sneVxKk s x kk, h.skipIf _⟩
  | seVxVy x y => exact ⟨_, exec_seVxVy s x y, h.skipIf _⟩
  | sneVxVy x y => exact ⟨_, exec_sneVxVy s x y, h.skipIf _⟩
  | skpVx x =>
    by_cases hx : (s.readV x).toNat ≤ 15
    · exact ⟨_, exec_skpVx s x hx, h.skipIf _⟩
    · exact ⟨_, exec_skpVx_range s x (not_le.mp hx), h⟩
  | sknpVx x =>
    by_cases hx : (s.readV x).toNat ≤ 15
    · exact ⟨_, exec_sknpVx s x hx, h.skipIf _⟩
    · exact ⟨_, exec_sknpVx_range s x (not_le.mp hx), h⟩
  | drw x y n =>
    by_cases hn : s.BlockFits n
    · exact ⟨_, exec_drw_fits s x y n hn, h.advance⟩
    · exact ⟨_, exec_drw_out s x y n hn, h⟩
  | ldBVx x =>
    by_cases hn : s.BlockFits 3
    · exact ⟨_, exec_ldBVx_fits s x hn, h.advance.writeBytes _⟩
    · exact ⟨_, exec_ldBVx_out s x hn, h⟩
  | ldMemVx x =>
    by_cases hn : s.BlockFits (x.val + 1)
    · exact ⟨_, exec_ldMemVx_fits s x hn, h.advance.writeBytes _⟩
    · exact ⟨_, exec_ldMemVx_out s x hn, h⟩
  | ldVxMem x =>
    by_cases hn : s.BlockFits (x.val + 1)
    · exact ⟨_, exec_ldVxMem_fits s x hn, h.advance⟩
    · exact ⟨_, exec_ldVxMem_out s x hn, h⟩
  | ldVxK x =>
    cases hk : lowestKey s.keys with
    | none => exact ⟨_, exec_ldVxK_wait s x ((lowestKey_eq_none _).mp hk), h.suspend⟩
    | some k => exact ⟨_, exec_ldVxK_key s x k hk, h.advance⟩
  -- These write registers, I, a timer or the frame: the bounded parts are those of the advance.
  | cls | ldVxKk | addVxKk | ldVxVy | orVxVy | andVxVy | xorVxVy | addVxVy | subVxVy | shrVx | subnVxVy | shlVx | ldINnn
  | rndVxKk | ldVxDt | ldDtVx | ldStVx | addIVx | ldFVx => exact ⟨_, rfl, h.advance⟩

/-! ### The ways a step ends -/

/-- The key wait is fetched again where it was fetched before (R206). -/
theorem State.fetchAddr_suspend (s : State) : s.suspend.fetchAddr = s.fetchAddr :=
  if_neg (not_le.mpr s.fetchAddr_lt)

theorem State.fetchWord_suspend (s : State) : s.suspend.fetchWord = s.fetchWord := by
  simp only [State.fetchWord, State.fetchAddr_suspend, State.readByte_suspend]

section
variable {s : State} (h : s.Inv)
include h

/-- The fault path (R252), for a cause that is RESERVED_FETCH exactly when the fetch address is reserved (R255). -/
theorem State.Inv.takeFault {c : FaultCause} (hc : c ≠ .none) (hres : c = .reservedFetch ↔ s.fetchAddr.toNat < 0x200) :
    (s.takeFault c).Inv where
  parameters := h.parameters
  memory := h.memory
  pcRange := h.pcRange
  spRange := h.spRange
  entryRange := h.entryRange
  latchClear hf := by simp at hf
  latchSet _ := ⟨hc, Nat.le_of_lt_succ s.fetchAddr_lt, rfl, rfl⟩
  latchReserved _ := ⟨hres, fun hr => if_pos hr⟩
  waiting ha := by simp at ha

/-- A suspended step stands at the key wait it fetched (R110). -/
theorem State.Inv.suspend (hf : s.fault = false) (ha : 0x200 ≤ s.fetchAddr.toNat) {x : RegIx}
    (hd : decode s.fetchWord = .ok (.ldVxK x)) : s.suspend.Inv where
  parameters := h.parameters
  memory := h.memory
  pcRange := h.bounded.suspend.pcRange
  spRange := h.spRange
  entryRange := h.entryRange
  latchClear := h.latchClear
  latchSet ht := by simp [hf] at ht
  latchReserved ht := by simp [hf] at ht
  waiting _ := ⟨rfl, ha, s.fetchAddr_lt, x, by rw [State.fetchWord_suspend]; exact hd⟩

/-- A completed instruction leaves the latch clear and AWAIT 0 (R109). -/
theorem State.Inv.complete (hf : s.fault = false) {t : State} (hb : SameBackground s t) {touched : Bool}
    (ht : (t.complete touched).Bounded) : (t.complete touched).Inv where
  parameters := by rw [State.complete_cfg, hb.cfg]; exact h.parameters
  memory := ht.memory
  pcRange := ht.pcRange
  spRange := ht.spRange
  entryRange := ht.entryRange
  latchClear _ := by
    simpa only [State.complete_faultCause, State.complete_faultPc, State.complete_faultOp, hb.faultCause, hb.faultPc,
      hb.faultOp] using h.latchClear hf
  latchSet hft := by simp [hb.fault, hf] at hft
  latchReserved hft := by simp [hb.fault, hf] at hft
  waiting ha := by simp at ha

/-- The end of the request writes the timers and the host's fields, which the invariant does not read (R118, R211). -/
theorem State.Inv.endStep : s.endStep.Inv :=
  ⟨h.parameters, h.memory, h.pcRange, h.spRange, h.entryRange, h.latchClear, h.latchSet, h.latchReserved, h.waiting⟩

/-- An instruction fetched at an address that is not reserved keeps the invariant. -/
theorem exec_inv (hf : s.fault = false) (ha : 0x200 ≤ s.fetchAddr.toNat) {i : Instr}
    (hd : decode s.fetchWord = .ok i) : ∃ t, exec i s = .next t ∧ t.Inv := by
  rcases exec_cases i s with ⟨t, he, -, -, hb⟩ | ⟨he, -, ⟨x, rfl⟩, -⟩ | ⟨c, he, -, hc, hres⟩
  · obtain ⟨u, hu, hbd⟩ := exec_bounded i s h.bounded
    obtain rfl : _ = u := Host.Outcome.next.inj (he.symm.trans hu)
    exact ⟨_, he, h.complete hf hb hbd⟩
  · exact ⟨_, he, h.suspend hf ha hd⟩
  · exact ⟨_, he, h.takeFault hc (iff_of_false hres (not_lt.mpr ha))⟩

/-- The core's step keeps the invariant. -/
theorem cycle_inv : ∃ t, cycle s = .next t ∧ t.Inv := by
  rcases cycle_cases s with ⟨-, hc⟩ | ⟨-, ha, hc⟩ | ⟨-, ha, -, hc⟩ | ⟨i, hf, ha, hd, hc⟩
  · exact ⟨s, hc, h⟩
  · exact ⟨_, hc, h.takeFault (by decide) (iff_of_true rfl ha)⟩
  · exact ⟨_, hc, h.takeFault (by decide) (iff_of_false (by decide) (not_lt.mpr ha))⟩
  · rw [hc]
    exact exec_inv h hf ha hd

end

/-- Settles O15, by the case a step ends in: the core's step keeps the invariant, and the end of the request writes nothing
it reads. -/
theorem everyStepKeepsInv : Obligations.EveryStepKeepsInv := by
  intro s t h hst
  obtain ⟨u, hu, hinv⟩ := cycle_inv h
  obtain rfl : u.endStep = t := Host.Outcome.next.inj ((step_of_cycle s u hu).symm.trans hst)
  exact hinv.endStep

end Sys2Proof.Machine
end

section
/-! SUPPORT. What no instruction reads: the status bits (O23), and, but for CALL and RET, the stack (O22). A step of a state
in which these are exchanged gives the same next state, with the stack left exchanged. -/

namespace Sys2Proof.Machine

/-- The state with another stack and other status bits. -/
def State.withUnread (s : State) (k : Vector Word 16) (b c : Bool) : State :=
  { s with stack := k, await := b, fbChanged := c }

section
variable (s : State) (k : Vector Word 16) (b c : Bool)

theorem State.skipIf_withUnread (d : Bool) : (s.withUnread k b c).skipIf d = (s.skipIf d).withUnread k b c := by
  cases d <;> rfl

theorem State.writeBytes_withUnread (l : List (Addr × Byte)) :
    (s.withUnread k b c).writeBytes l = (s.writeBytes l).withUnread k b c := by
  induction l generalizing s with
  | nil => rfl
  | cons e rest ih => exact ih (s.writeByte e.1 e.2)

/-- A completed instruction sets both status bits itself (R109). -/
theorem next_complete_withUnread {t u : State} (h : u = t.withUnread k b c) (touched : Bool) :
    (.next (u.complete touched) : Host.Outcome State Fault Refusal) = .next { t.complete touched with stack := k } := by
  rw [h]
  rfl

/-- An instruction other than RET and CALL neither reads nor writes the stack, and reads no status bit. -/
theorem exec_withUnread (i : Instr) (hi : ¬ (i = .ret ∨ ∃ a, i = .call a)) :
    ∃ t, exec i s = .next t ∧ t.sp = s.sp ∧ t.stack = s.stack
      ∧ exec i (s.withUnread k b c) = .next { t with stack := k } := by
  have hskip (d : Bool) := next_complete_withUnread k b c (s.advance.skipIf_withUnread k b c d) false
  have hstore (l : List (Addr × Byte)) :=
    next_complete_withUnread k b c (s.advance.writeBytes_withUnread k b c l) false
  cases i with
  | ret => exact absurd (.inl rfl) hi
  | call a => exact absurd (.inr ⟨a, rfl⟩) hi
  | seVxKk | sneVxKk | seVxVy | sneVxVy =>
    exact ⟨_, rfl, State.skipIf_sp _ _, State.skipIf_stack _ _, hskip _⟩
  | skpVx x =>
    by_cases hx : (s.readV x).toNat ≤ 15
    · exact ⟨_, exec_skpVx s x hx, State.skipIf_sp _ _, State.skipIf_stack _ _,
        (exec_skpVx (s.withUnread k b c) x hx).trans (hskip _)⟩
    · exact ⟨_, exec_skpVx_range s x (not_le.mp hx), rfl, rfl, exec_skpVx_range _ x (not_le.mp hx)⟩
  | sknpVx x =>
    by_cases hx : (s.readV x).toNat ≤ 15
    · exact ⟨_, exec_sknpVx s x hx, State.skipIf_sp _ _, State.skipIf_stack _ _,
        (exec_sknpVx (s.withUnread k b c) x hx).trans (hskip _)⟩
    · exact ⟨_, exec_sknpVx_range s x (not_le.mp hx), rfl, rfl, exec_sknpVx_range _ x (not_le.mp hx)⟩
  | drw x y n =>
    by_cases hn : s.BlockFits n
    · exact ⟨_, exec_drw_fits s x y n hn, rfl, rfl, exec_drw_fits _ x y n hn⟩
    · exact ⟨_, exec_drw_out s x y n hn, rfl, rfl, exec_drw_out _ x y n hn⟩
  | ldBVx x =>
    by_cases hn : s.BlockFits 3
    · exact ⟨_, exec_ldBVx_fits s x hn, State.writeBytes_sp _ _, State.writeBytes_stack _ _,
        (exec_ldBVx_fits (s.withUnread k b c) x hn).trans (hstore _)⟩
    · exact ⟨_, exec_ldBVx_out s x hn, rfl, rfl, exec_ldBVx_out _ x hn⟩
  | ldMemVx x =>
    by_cases hn : s.BlockFits (x.val + 1)
    · exact ⟨_, exec_ldMemVx_fits s x hn, State.writeBytes_sp _ _, State.writeBytes_stack _ _,
        (exec_ldMemVx_fits (s.withUnread k b c) x hn).trans (hstore _)⟩
    · exact ⟨_, exec_ldMemVx_out s x hn, rfl, rfl, exec_ldMemVx_out _ x hn⟩
  | ldVxMem x =>
    by_cases hn : s.BlockFits (x.val + 1)
    · exact ⟨_, exec_ldVxMem_fits s x hn, rfl, rfl, exec_ldVxMem_fits _ x hn⟩
    · exact ⟨_, exec_ldVxMem_out s x hn, rfl, rfl, exec_ldVxMem_out _ x hn⟩
  | ldVxK x =>
    cases hk : lowestKey s.keys with
    | none =>
      have h0 := (lowestKey_eq_none _).mp hk
      exact ⟨_, exec_ldVxK_wait s x h0, rfl, rfl, exec_ldVxK_wait _ x h0⟩
    | some key => exact ⟨_, exec_ldVxK_key s x key hk, rfl, rfl, exec_ldVxK_key _ x key hk⟩
  -- These have no condition and write a fixed list of fields.
  | cls | jp | jpV0 | ldVxKk | addVxKk | ldVxVy | orVxVy | andVxVy | xorVxVy | addVxVy | subVxVy | shrVx | subnVxVy | shlVx
  | ldINnn | rndVxKk | ldVxDt | ldDtVx | ldStVx | addIVx | ldFVx => exact ⟨_, rfl, rfl, rfl, rfl⟩

theorem cycle_of_reserved (hf : s.fault = false) (ha : s.fetchAddr.toNat < 0x200) :
    cycle s = .next (s.takeFault .reservedFetch) := by
  simp [cycle, hf, ha]

theorem cycle_of_invalid (hf : s.fault = false) (ha : 0x200 ≤ s.fetchAddr.toNat) {e : DecodeError}
    (hd : decode s.fetchWord = .error e) : cycle s = .next (s.takeFault .invalidOpcode) := by
  simp [cycle, hf, Nat.not_lt.mpr ha, hd]

theorem cycle_of_decode (hf : s.fault = false) (ha : 0x200 ≤ s.fetchAddr.toNat) {i : Instr}
    (hd : decode s.fetchWord = .ok i) : cycle s = exec i s := by
  simp [cycle, hf, Nat.not_lt.mpr ha, hd]

/-- No instruction reads a status bit. -/
theorem exec_withStatus (i : Instr) : exec i (s.withUnread s.stack b c) = exec i s := by
  by_cases hi : i = .ret ∨ ∃ a, i = .call a
  · rcases hi with rfl | ⟨a, rfl⟩
    · by_cases hsp : s.sp = 0
      · exact (exec_ret_empty (s.withUnread s.stack b c) hsp).trans (exec_ret_empty s hsp).symm
      · exact (exec_ret_pop (s.withUnread s.stack b c) hsp).trans (exec_ret_pop s hsp).symm
    · by_cases hsp : s.sp = 16
      · exact (exec_call_full (s.withUnread s.stack b c) a hsp).trans (exec_call_full s a hsp).symm
      · exact (exec_call_push (s.withUnread s.stack b c) a hsp).trans (exec_call_push s a hsp).symm
  · obtain ⟨t, he, -, hst, he'⟩ := exec_withUnread s s.stack b c i hi
    rw [he, he', ← hst]

/-- The fetch and the decode read neither the stack nor a status bit: such a step faults alike, or runs the same
instruction. -/
theorem cycle_withUnread (hf : s.fault = false) :
    (∃ f, cycle s = .next (s.takeFault f) ∧ cycle (s.withUnread k b c) = .next { s.takeFault f with stack := k })
      ∨ ∃ i, cycle s = exec i s ∧ cycle (s.withUnread k b c) = exec i (s.withUnread k b c) := by
  rcases cycle_cases s with ⟨h, -⟩ | ⟨-, ha, hc⟩ | ⟨-, ha, hd, hc⟩ | ⟨i, -, ha, hd, hc⟩
  · simp [hf] at h
  · exact .inl ⟨_, hc, cycle_of_reserved (s.withUnread k b c) hf ha⟩
  · exact .inl ⟨_, hc, cycle_of_invalid (s.withUnread k b c) hf ha hd⟩
  · exact .inr ⟨i, hc, cycle_of_decode (s.withUnread k b c) hf ha hd⟩

end

/-- Settles O23: the step fetches, decodes and runs the same instruction, and no instruction reads a status bit. -/
theorem statusBitsHaveNoEffect : Obligations.StatusBitsHaveNoEffect := by
  intro s b c hf
  have hc : cycle (s.withUnread s.stack b c) = cycle s := by
    rcases cycle_withUnread s s.stack b c hf with ⟨f, h, h'⟩ | ⟨i, h, h'⟩
    · exact h'.trans h.symm
    · rw [h, h', exec_withStatus]
  exact congrArg (thenNext · State.endStep) hc

/-! ### Stack entries at or above SP -/

section
variable {s t : State}

theorem State.sameButStale_iff :
    s.SameButStale t ↔ ∃ k, t = { s with stack := k } ∧ ∀ j : Fin 16, j.val < s.sp.toNat → s.stack[j] = k[j] := by
  constructor
  · rintro ⟨hrest, hlive⟩
    exact ⟨t.stack, hrest.symm, hlive⟩
  · rintro ⟨k, rfl, hlive⟩
    exact ⟨rfl, hlive⟩

/-- A pop reads the entry below SP, which is live. -/
theorem State.SameButStale.popPc (h : s.SameButStale t) (hsp : s.sp ≠ 0) : s.popPc.SameButStale t.popPc := by
  obtain ⟨k, rfl, hlive⟩ := State.sameButStale_iff.mp h
  have hdown : (s.sp - 1).toNat < s.sp.toNat := by bv_omega
  have htop : s.stack[(s.sp - 1).toNat]? = k[(s.sp - 1).toNat]? := by
    by_cases hin : (s.sp - 1).toNat < 16
    · rw [Vector.getElem?_eq_getElem hin, Vector.getElem?_eq_getElem hin]
      exact congrArg some (hlive ⟨_, hin⟩ hdown)
    · rw [Vector.getElem?_eq_none (not_lt.mp hin), Vector.getElem?_eq_none (not_lt.mp hin)]
  refine ⟨?_, fun j hj => hlive j (hj.trans hdown)⟩
  simp only [State.popPc, htop]

/-- A push makes one more entry live, the one it writes. -/
theorem State.SameButStale.push (h : s.SameButStale t) (w : Word) : (s.push w).SameButStale (t.push w) := by
  obtain ⟨k, rfl, hlive⟩ := State.sameButStale_iff.mp h
  refine ⟨rfl, fun j hj => ?_⟩
  have hup : (s.push w).sp.toNat ≤ s.sp.toNat + 1 := by
    rw [State.push_sp, BitVec.toNat_add]
    exact Nat.mod_le _ _
  simp only [State.push_stack, Fin.getElem_fin, Vector.getElem_setIfInBounds]
  split
  · rfl
  · exact hlive j (by omega)

theorem State.SameButStale.advance (h : s.SameButStale t) : s.advance.SameButStale t.advance := by
  obtain ⟨k, rfl, hlive⟩ := State.sameButStale_iff.mp h
  exact ⟨rfl, hlive⟩

theorem exec_sameButStale (h : s.SameButStale t) (i : Instr) :
    ∃ s' t', exec i s = .next s' ∧ exec i t = .next t' ∧ s'.SameButStale t' := by
  obtain ⟨k, rfl, hk⟩ := State.sameButStale_iff.mp h
  by_cases hi : i = .ret ∨ ∃ a, i = .call a
  · rcases hi with rfl | ⟨a, rfl⟩
    · by_cases hsp : s.sp = 0
      · exact ⟨_, _, exec_ret_empty s hsp, exec_ret_empty _ hsp, rfl, hk⟩
      · have hpop := h.advance.popPc hsp
        exact ⟨_, _, exec_ret_pop s hsp, exec_ret_pop _ hsp, congrArg (State.complete · false) hpop.rest, hpop.live⟩
    · by_cases hsp : s.sp = 16
      · exact ⟨_, _, exec_call_full s a hsp, exec_call_full _ a hsp, rfl, hk⟩
      · exact ⟨_, _, exec_call_push s a hsp, exec_call_push _ a hsp, rfl, (h.advance.push _).live⟩
  · obtain ⟨s', he, hsp, hst, he'⟩ := exec_withUnread s k s.await s.fbChanged i hi
    exact ⟨s', _, he, he', rfl, by rwa [hsp, hst]⟩

theorem cycle_sameButStale (h : s.SameButStale t) :
    ∃ s' t', cycle s = .next s' ∧ cycle t = .next t' ∧ s'.SameButStale t' := by
  obtain ⟨k, rfl, hlive⟩ := State.sameButStale_iff.mp h
  by_cases hf : s.fault = true
  · exact ⟨_, _, if_pos hf, if_pos hf, rfl, hlive⟩
  · rcases cycle_withUnread s k s.await s.fbChanged (Bool.eq_false_of_not_eq_true hf) with ⟨f, hc, hc'⟩ | ⟨i, hc, hc'⟩
    · exact ⟨_, _, hc, hc', rfl, hlive⟩
    · obtain ⟨s', t', hs, ht, hst⟩ := exec_sameButStale h i
      exact ⟨s', t', hc.trans hs, hc'.trans ht, hst⟩

theorem State.SameButStale.endStep (h : s.SameButStale t) : s.endStep.SameButStale t.endStep := by
  obtain ⟨k, rfl, hlive⟩ := State.sameButStale_iff.mp h
  exact ⟨rfl, hlive⟩

end

/-- RET leaves every stack entry as it is (R38, R130). -/
theorem exec_ret_stack {s t : State} (h : exec .ret s = .next t) : t.stack = s.stack := by
  by_cases hsp : s.sp = 0
  · obtain rfl := Host.Outcome.next.inj ((exec_ret_empty s hsp).symm.trans h)
    rfl
  · obtain rfl := Host.Outcome.next.inj ((exec_ret_pop s hsp).symm.trans h)
    rfl

/-- Settles O22: no output reads the stack, and every step keeps the agreement, since a pop reads a live entry only and a
push writes the entry it makes live. -/
theorem staleStackIsUnobservable : Obligations.StaleStackIsUnobservable := by
  refine ⟨fun s t h => ?_, fun s t => exec_ret_stack⟩
  obtain ⟨k, rfl, -⟩ := State.sameButStale_iff.mp h
  obtain ⟨s', t', hs, ht, hst⟩ := cycle_sameButStale h
  exact ⟨rfl, rfl, rfl, rfl, _, _, step_of_cycle _ _ hs, step_of_cycle _ _ ht, hst.endStep⟩

end Sys2Proof.Machine
end

section
/-! SUPPORT. What each instruction writes (O20, O21): one table in the parts of Safety.lean, one frame for all instructions,
and the table read backwards. -/

namespace Sys2Proof.Machine

/-- The parts the end of a step may write, whatever the instruction (R106, R109 to R111). -/
def controlParts : List Part := [.latch, .await, .fbChanged, .pc]

/-- The parts an instruction may write besides these. -/
def instrWrites (i : Instr) (s : State) : List Part :=
  match i with
  | .cls => [.fb]
  | .drw _ _ _ => [.fb, .reg vf]
  | .ret => [.sp]
  | .call _ => .sp :: ((List.finRange 16).filter (·.val = s.sp.toNat)).map Part.entry
  | .ldVxKk x _ | .addVxKk x _ | .ldVxVy x _ | .orVxVy x _ | .andVxVy x _ | .xorVxVy x _ | .rndVxKk x _ | .ldVxDt x
  | .ldVxK x => [.reg x]
  | .addVxVy x _ | .subVxVy x _ | .shrVx x | .subnVxVy x _ | .shlVx x => [.reg x, .reg vf]
  | .ldVxMem x => ((List.finRange 16).filter (·.val < x.val + 1)).map Part.reg
  | .ldINnn _ | .addIVx _ | .ldFVx _ => [.index]
  | .ldDtVx _ => [.dt]
  | .ldStVx _ => [.st]
  | .ldBVx _ => (s.span 3).map Part.byte
  | .ldMemVx x => (s.span (x.val + 1)).map Part.byte
  | .jp _ | .jpV0 _ | .seVxKk _ _ | .sneVxKk _ _ | .seVxVy _ _ | .sneVxVy _ _ | .skpVx _ | .sknpVx _ => []

/-- From `s` to `t` no part changes but the control parts and the listed ones; and where no byte is listed, memory is the
same list of cells, which says more than that every byte reads the same. -/
structure Keeps (may : List Part) (s t : State) : Prop where
  parts : OnlyChanges (controlParts ++ may) s t
  mem : (∀ a, .byte a ∉ may) → t.mem = s.mem

/-! ### The frames of the shapes of a rule -/

section
variable {may : List Part} {s t : State}

theorem OnlyChanges.mono {may' : List Part} (h : OnlyChanges may s t) (hsub : may ⊆ may') : OnlyChanges may' s t :=
  fun p hp => h p fun hm => hp (hsub hm)

/-- A completed instruction does not write the latch, the first of the control parts. -/
theorem OnlyChanges.keeps (h : OnlyChanges (.await :: .fbChanged :: .pc :: may) s t)
    (hmem : (∀ a, .byte a ∉ may) → t.mem = s.mem) : Keeps may s t :=
  ⟨h.mono (List.subset_cons_self _ _), hmem⟩

theorem keeps_takeFault (may : List Part) (s : State) (c : FaultCause) : Keeps may s (s.takeFault c) :=
  ⟨(onlyChanges_takeFault s c).mono (by simp [controlParts]), fun _ => rfl⟩

theorem keeps_suspend (may : List Part) (s : State) : Keeps may s s.suspend :=
  ⟨(onlyChanges_suspend s).mono (by simp [controlParts]), fun _ => rfl⟩

theorem keeps_skipIf (s : State) (c : Bool) : Keeps [] s ((s.advance.skipIf c).complete false) :=
  (onlyChanges_skipIf s c).keeps fun _ => State.skipIf_mem _ c

/-- Where no byte is listed, the store was empty. -/
theorem keeps_writeBytes (s : State) (l : List (Addr × Byte)) :
    Keeps ((l.map Prod.fst).map Part.byte) s ((s.advance.writeBytes l).complete false) :=
  (onlyChanges_writeBytes s l).keeps fun h => by
    cases l with
    | nil => rfl
    | cons e rest => exact absurd List.mem_cons_self (h e.1)

/-- A block store writes the bytes of the span the claims name. -/
theorem keeps_store (s : State) (n : Nat) (hn : s.BlockFits n) {bs : List Byte} (hbs : n ≤ bs.length) :
    Keeps ((s.span n).map Part.byte) s ((s.advance.writeBytes
      (((List.range n).map fun j => BitVec.ofNat 12 (s.index.toNat + j)).zip bs)).complete false) := by
  have hspan := s.span_eq n hn
  have h := keeps_writeBytes s ((s.span n).zip bs)
  rw [List.map_fst_zip (by simpa [hspan] using hbs)] at h
  rwa [← hspan]

/-- A block load writes as many registers as it has bytes. -/
theorem keeps_load (s : State) (bs : List Byte) {n : Nat} (hn : bs.length = n) :
    Keeps (((List.finRange 16).filter (·.val < n)).map Part.reg) s ((s.advance.writeRegs bs).complete false) := by
  subst hn
  exact (onlyChanges_writeRegs s bs).keeps fun _ => rfl

theorem keeps_withBlit (s : State) (b : Blit) : Keeps [.fb, .reg vf] s ((s.advance.withBlit b).complete true) := by
  refine OnlyChanges.keeps (fun p hp => ?_) fun _ => rfl
  cases p with
  | reg r =>
    have hr : r ≠ vf := by rintro rfl; exact hp (by simp)
    exact (State.readV_writeV _ vf r _).trans (if_neg hr)
  | latch => exact ⟨rfl, rfl, rfl, rfl⟩
  | host => exact ⟨rfl, rfl⟩
  | fb | pc | await | fbChanged => exact absurd (by simp) hp
  | _ => rfl

theorem keeps_popPc (s : State) : Keeps [.sp] s (s.advance.popPc.complete false) := by
  refine OnlyChanges.keeps (fun p hp => ?_) fun _ => rfl
  cases p with
  | latch => exact ⟨rfl, rfl, rfl, rfl⟩
  | host => exact ⟨rfl, rfl⟩
  | sp | pc | await | fbChanged => exact absurd (by simp) hp
  | _ => rfl

/-- A push changes the one entry it writes. -/
theorem keeps_push (s : State) (w : Word) (a : Addr) :
    Keeps (.sp :: ((List.finRange 16).filter (·.val = s.sp.toNat)).map Part.entry) s
      (((s.advance.push w).jump a).complete false) := by
  refine OnlyChanges.keeps (fun p hp => ?_) fun _ => rfl
  cases p with
  | entry j =>
    have hj : s.sp.toNat ≠ j.val := fun h => hp (by simp [h])
    exact Vector.getElem_setIfInBounds_ne _ hj
  | latch => exact ⟨rfl, rfl, rfl, rfl⟩
  | host => exact ⟨rfl, rfl⟩
  | sp | pc | await | fbChanged => exact absurd (by simp) hp
  | _ => rfl

end

/-- What an instruction does besides the control parts stays in the table, however it ends. -/
theorem exec_keeps (i : Instr) (s : State) : ∃ t, exec i s = .next t ∧ Keeps (instrWrites i s) s t := by
  cases i with
  | ret =>
    by_cases hsp : s.sp = 0
    · exact ⟨_, exec_ret_empty s hsp, keeps_takeFault _ s _⟩
    · exact ⟨_, exec_ret_pop s hsp, keeps_popPc s⟩
  | call a =>
    by_cases hsp : s.sp = 16
    · exact ⟨_, exec_call_full s a hsp, keeps_takeFault _ s _⟩
    · exact ⟨_, exec_call_push s a hsp, keeps_push s _ a⟩
  | skpVx x =>
    by_cases hx : (s.readV x).toNat ≤ 15
    · exact ⟨_, exec_skpVx s x hx, keeps_skipIf s _⟩
    · exact ⟨_, exec_skpVx_range s x (not_le.mp hx), keeps_takeFault _ s _⟩
  | sknpVx x =>
    by_cases hx : (s.readV x).toNat ≤ 15
    · exact ⟨_, exec_sknpVx s x hx, keeps_skipIf s _⟩
    · exact ⟨_, exec_sknpVx_range s x (not_le.mp hx), keeps_takeFault _ s _⟩
  | drw x y n =>
    by_cases hn : s.BlockFits n
    · exact ⟨_, exec_drw_fits s x y n hn, keeps_withBlit s _⟩
    · exact ⟨_, exec_drw_out s x y n hn, keeps_takeFault _ s _⟩
  | ldBVx x =>
    by_cases hn : s.BlockFits 3
    · exact ⟨_, exec_ldBVx_fits s x hn, keeps_store s 3 hn (by simp [decimalDigits])⟩
    · exact ⟨_, exec_ldBVx_out s x hn, keeps_takeFault _ s _⟩
  | ldMemVx x =>
    by_cases hn : s.BlockFits (x.val + 1)
    · exact ⟨_, exec_ldMemVx_fits s x hn, keeps_store s _ hn (s.length_regsTo x).ge⟩
    · exact ⟨_, exec_ldMemVx_out s x hn, keeps_takeFault _ s _⟩
  | ldVxMem x =>
    by_cases hn : s.BlockFits (x.val + 1)
    · exact ⟨_, exec_ldVxMem_fits s x hn, keeps_load s _ (by simp)⟩
    · exact ⟨_, exec_ldVxMem_out s x hn, keeps_takeFault _ s _⟩
  | ldVxK x =>
    cases hk : lowestKey s.keys with
    | none => exact ⟨_, exec_ldVxK_wait s x ((lowestKey_eq_none _).mp hk), keeps_suspend _ s⟩
    | some k => exact ⟨_, exec_ldVxK_key s x k hk, (onlyChanges_writeV s x _).keeps fun _ => rfl⟩
  | seVxKk | sneVxKk | seVxVy | sneVxVy => exact ⟨_, rfl, keeps_skipIf s _⟩
  | ldVxKk x | addVxKk x | ldVxVy x | orVxVy x | andVxVy x | xorVxVy x | rndVxKk x | ldVxDt x =>
    exact ⟨_, rfl, (onlyChanges_writeV s x _).keeps fun _ => rfl⟩
  | addVxVy x | subVxVy x | shrVx x | subnVxVy x | shlVx x =>
    exact ⟨_, rfl, (onlyChanges_writeWithFlag s x _ _).keeps fun _ => rfl⟩
  -- These write one field as a whole, or PC only.
  | cls | jp | jpV0 | ldINnn | addIVx | ldFVx | ldDtVx | ldStVx =>
    refine ⟨_, rfl, OnlyChanges.keeps (fun p hp => ?_) fun _ => rfl⟩
    cases p with
    | latch => exact ⟨rfl, rfl, rfl, rfl⟩
    | host => exact ⟨rfl, rfl⟩
    | _ => first | rfl | exact absurd (by simp [instrWrites]) hp

/-! ### The table read backwards -/

section
variable {i : Instr} {s t : State}

/-- A part that changed, and is no control part, stands in the instruction's table. -/
theorem mem_instrWrites_of_exec (h : exec i s = .next t) {p : Part} (hc : p ∉ controlParts) (hp : ¬ p.Same s t) :
    p ∈ instrWrites i s := by
  obtain ⟨u, hu, hk⟩ := exec_keeps i s
  obtain rfl := Host.Outcome.next.inj (hu.symm.trans h)
  by_contra hm
  exact hp (hk.parts p (by simp [hc, hm]))

/-- Where the list of cells changed, the instruction's table holds a byte. -/
theorem exists_byte_mem_instrWrites_of_exec (h : exec i s = .next t) (hm : t.mem ≠ s.mem) :
    ∃ a, .byte a ∈ instrWrites i s := by
  obtain ⟨u, hu, hk⟩ := exec_keeps i s
  obtain rfl := Host.Outcome.next.inj (hu.symm.trans h)
  by_contra! hno
  exact hm (hk.mem hno)

theorem index_mem_instrWrites (h : .index ∈ instrWrites i s) :
    (∃ a, i = .ldINnn a) ∨ (∃ x, i = .addIVx x) ∨ ∃ x, i = .ldFVx x := by
  cases i <;> simp_all [instrWrites]

theorem sp_mem_instrWrites (h : .sp ∈ instrWrites i s) : i = .ret ∨ ∃ a, i = .call a := by
  cases i <;> simp_all [instrWrites]

theorem entry_mem_instrWrites {j : Fin 16} (h : .entry j ∈ instrWrites i s) : ∃ a, i = .call a := by
  cases i <;> simp_all [instrWrites]

theorem dt_mem_instrWrites (h : .dt ∈ instrWrites i s) : ∃ x, i = .ldDtVx x := by
  cases i <;> simp_all [instrWrites]

theorem st_mem_instrWrites (h : .st ∈ instrWrites i s) : ∃ x, i = .ldStVx x := by
  cases i <;> simp_all [instrWrites]

theorem byte_mem_instrWrites {a : Addr} (h : .byte a ∈ instrWrites i s) :
    (∃ x, i = .ldBVx x) ∨ ∃ x, i = .ldMemVx x := by
  cases i <;> simp_all [instrWrites]

end

/-- Settles O20: a part that changed stands in the table of the instruction, and the table names its writers. -/
theorem eachPartHasItsWriters : Obligations.EachPartHasItsWriters := by
  intro i s t h
  refine ⟨fun hp => index_mem_instrWrites (mem_instrWrites_of_exec h (by decide) hp), ?_,
    fun hp => dt_mem_instrWrites (mem_instrWrites_of_exec h (by decide) hp),
    fun hp => st_mem_instrWrites (mem_instrWrites_of_exec h (by decide) hp), fun hm => ?_⟩
  · rintro (hp | hp)
    · exact sp_mem_instrWrites (mem_instrWrites_of_exec h (by decide) hp)
    · have hentry : ∃ j : Fin 16, t.stack[j] ≠ s.stack[j] := by
        by_contra! hall
        exact hp (Vector.ext fun j hj => hall ⟨j, hj⟩)
      obtain ⟨j, hj⟩ := hentry
      exact .inr (entry_mem_instrWrites (mem_instrWrites_of_exec h (by simp [controlParts]) hj))
  · obtain ⟨a, ha⟩ := exists_byte_mem_instrWrites_of_exec h hm
    exact byte_mem_instrWrites ha

/-- Settles O21: VF stands in the table of the flag writers, of DRW, and of an instruction whose destination it is. -/
theorem vfChangesOnlyAsNamed : Obligations.VfChangesOnlyAsNamed := by
  intro i s t h hp
  have hvf : .reg vf ∈ instrWrites i s := mem_instrWrites_of_exec h (by decide) hp
  cases i with
  | addVxVy | subVxVy | subnVxVy | shrVx | shlVx | drw => simp
  | ldVxKk x | addVxKk x | rndVxKk x | ldVxVy x | orVxVy x | andVxVy x | xorVxVy x | ldVxDt x | ldVxK x =>
    obtain rfl : vf = x := by simpa [instrWrites] using hvf
    simp
  | ldVxMem x =>
    have hx : vf ≤ x := by simpa [instrWrites, Nat.lt_succ_iff] using hvf
    obtain rfl : x = vf := le_antisymm (Fin.le_last x) hx
    simp
  | _ => simp [instrWrites] at hvf

end Sys2Proof.Machine
end

section
/-! SUPPORT. The step's own fields (O14, O24) and the state after reset (O16, O17). -/

namespace Sys2Proof.Machine

/-! ### One step -/

/-- The status bits after a step of a core that is not faulted, by the way the step ends (R43, R44, R109 to R111). -/
theorem cycle_status (s : State) (hf : s.fault = false) :
    ∃ t, cycle s = .next t ∧ (t.await = true ↔ stepFault s = none ∧ Suspends s)
      ∧ (t.fbChanged = true ↔ stepFault s = none ∧ ∃ i, decode s.fetchWord = .ok i ∧ i.touchesDisplay = true) := by
  rcases cycle_unfaulted s hf with ⟨c, hsf, -, hc⟩ | ⟨i, -, hsf, hd, hc, hend⟩
  · exact ⟨_, hc, by simp [hsf], by simp [hsf]⟩
  · have htouch : (∃ j, decode s.fetchWord = .ok j ∧ j.touchesDisplay = true) ↔ i.touchesDisplay = true := by simp [hd]
    rw [suspends_iff s i hd, htouch]
    rcases hend with ⟨he, ⟨x, rfl⟩, hk⟩ | ⟨t, he, hk, -⟩
    · exact ⟨_, hc.trans he, by simp [hsf, hk], by simp [Instr.touchesDisplay]⟩
    · have hrun : ¬ ((∃ x, i = .ldVxK x) ∧ s.keys = 0) := fun ⟨⟨x, hx⟩, h0⟩ => hk x hx h0
      exact ⟨_, hc.trans he, iff_of_false (by simp) fun h => hrun h.2, by simp [hsf]⟩

/-- Settles O14: a faulted core keeps its status bits, which the premise has at 0; else the way the step ends sets them. -/
theorem statusBitsAfterAStep : Obligations.StatusBitsAfterAStep := by
  refine ⟨fun s t hclear hc => ?_, fun s => ⟨rfl, rfl⟩⟩
  cases hf : s.fault with
  | true =>
    have hstay : cycle s = .next s := if_pos hf
    obtain rfl := Host.Outcome.next.inj (hstay.symm.trans hc)
    simp [hclear hf]
  | false =>
    obtain ⟨u, hu, hawait, hfb⟩ := cycle_status s hf
    obtain rfl := Host.Outcome.next.inj (hu.symm.trans hc)
    simp [hawait, hfb]

/-- Settles O24: the core's step leaves the three fields alone, and the end of the request uses up one input. -/
theorem parametersNeverChange : Obligations.ParametersNeverChange := by
  intro s t h
  obtain ⟨u, hu, hcfg, hinputs, hsteps⟩ := cycle_next s
  obtain rfl := Host.Outcome.next.inj ((step_of_cycle s u hu).symm.trans h)
  exact ⟨hcfg, congrArg List.tail hinputs, congrArg (· + 1) hsteps⟩

/-! ### Reset -/

/-- Outside the font an unlisted byte reads 0 (R41, R282). -/
theorem memDefault_eq_zero (c : Config) (a : Nat) (h : a < c.fontBase.toNat ∨ c.fontBase.toNat + 80 ≤ a) :
    memDefault c a = 0 := by
  unfold memDefault
  split
  · rw [List.getElem?_eq_none (by simp; omega)]
    rfl
  · rfl

/-- Byte k of the font stands at FONT_BASE + k (R67). -/
theorem memDefault_font (c : Config) (k : Fin 80) : memDefault c (c.fontBase.toNat + k.val) = c.fontData[k] := by
  simp [memDefault]

/-- R280 to R282: the reset event gives the values of R49, whatever legal parameters the machine has. -/
theorem State.rst_resetValues (s : State) (h : s.cfg.Legal) : ResetValues s.rst where
  regs r := by simp [State.readV, State.reset]
  pc := rfl
  index := rfl
  sp := rfl
  stack j := by simp [State.reset]
  timers := ⟨rfl, rfl⟩
  frame r c _ _ := pixelAt_blankFrame r c
  font k := by
    have hk : s.cfg.fontBase.toNat + k.val < 2 ^ 12 := by have := k.isLt; omega
    rw [readByte_of_mem_nil _ rfl, State.rst_cfg, BitVec.toNat_ofNat, Nat.mod_eq_of_lt hk, memDefault_font]
  zeros a ha := by rw [readByte_of_mem_nil _ rfl, memDefault_eq_zero _ _ ha]
  status := ⟨rfl, rfl⟩
  latch := ⟨rfl, rfl, rfl, rfl⟩

/-- The spec's default FONT_BASE is legal (R17). -/
theorem defaultConfig_legal : defaultConfig.Legal := by decide

/-- Settles O17: the state after reset is what the reset event gives with the default parameters. -/
theorem resetStateHasResetValues : Obligations.ResetStateHasResetValues :=
  ⟨State.reset.rst_resetValues defaultConfig_legal, rfl, rfl, rfl, rfl, rfl⟩

/-- Settles O16: the latch is clear and the core is not waiting; the bounds are those of the reset values. -/
theorem resetMeetsInv : Obligations.ResetMeetsInv where
  parameters := defaultConfig_legal
  memory := reset_mem_wf
  pcRange := by decide
  spRange := by decide
  entryRange j := by simp [State.reset]
  latchClear _ := ⟨rfl, rfl, rfl⟩
  latchSet h := by simp [State.reset] at h
  latchReserved h := by simp [State.reset] at h
  waiting h := by simp [State.reset] at h

end Sys2Proof.Machine
end

section
/-! SUPPORT. The bytes of an instruction in memory: words the spec writes out (O6), the fetched word by its two bytes, and
what a store leaves for the next fetch (O25). -/

namespace Sys2Proof.Machine

/-- Settles O6: the decoder evaluated at each word, one case for each refused word (R87). -/
theorem specWordsDecode : Obligations.SpecWordsDecode := by
  refine ⟨rfl, rfl, rfl, rfl, rfl, rfl, rfl, rfl, rfl, rfl, fun op hop => ?_, rfl⟩
  simp only [List.mem_cons, List.not_mem_nil, or_false] at hop
  rcases hop with rfl | rfl | rfl | rfl | rfl | rfl | rfl | rfl <;> rfl

/-- The fetched word is big-endian (R62, R103), and its second byte never lies past the end of memory (R102). -/
theorem State.fetchWord_toNat (s : State) :
    s.fetchWord.toNat = 256 * (s.readByte (BitVec.ofNat 12 s.fetchAddr.toNat)).toNat
      + (s.readByte (BitVec.ofNat 12 (s.fetchAddr.toNat + 1))).toNat := by
  have hfa := s.fetchAddr_lt
  have hnext : (s.fetchAddr + 1).toNat = s.fetchAddr.toNat + 1 := by bv_omega
  rw [State.fetchWord, ofBytes_toNat, ← hnext, BitVec.ofNat_toNat, BitVec.ofNat_toNat, Nat.mul_comm]

/-- Byte k of a block store stands k bytes above the block's first address. -/
theorem State.readByte_writeBytes_block (s : State) (b : Nat) (bs : List Byte) (hlen : bs.length ≤ 4096)
    {k : Nat} (hk : k < bs.length) :
    (s.writeBytes (((List.range bs.length).map fun j => BitVec.ofNat 12 (b + j)).zip bs)).readByte
      (BitVec.ofNat 12 (b + k)) = bs[k] := by
  apply s.readByte_writeBytes
  · rw [List.map_fst_zip (by simp)]
    exact block_nodup b _ hlen
  · exact List.mem_iff_getElem.mpr ⟨k, by simpa using hk, by simp⟩

/-- `LD [I], Vx` leaves each of V[0] to V[x] at its own address (R229). -/
theorem readByte_of_exec_ldMemVx {s t : State} {x : RegIx} (hfits : s.BlockFits (x.val + 1))
    (h : exec (.ldMemVx x) s = .next t) {k : RegIx} (hk : k.val ≤ x.val) :
    t.readByte (BitVec.ofNat 12 (s.index.toNat + k.val)) = s.readV k := by
  obtain rfl := Host.Outcome.next.inj ((exec_ldMemVx_fits s x hfits).symm.trans h)
  have hlen := s.length_regsTo x
  have hkl : k.val < (s.regsTo x).length := by omega
  rw [State.readByte_complete, ← hlen, s.advance.readByte_writeBytes_block _ _ (by omega) hkl, s.getElem_regsTo x k hkl]

/-- Settles O25: the fetch reads the bytes at I and I + 1, where the store put V[0] and V[1]. -/
theorem storedInstructionIsFetched : Obligations.StoredInstructionIsFetched := by
  intro s t x hx hfits h hfa
  have hhigh : t.readByte (BitVec.ofNat 12 s.index.toNat) = s.readV 0 :=
    readByte_of_exec_ldMemVx hfits h (k := 0) (Nat.zero_le _)
  have hlow : t.readByte (BitVec.ofNat 12 (s.index.toNat + 1)) = s.readV 1 :=
    readByte_of_exec_ldMemVx hfits h (k := 1) hx
  rw [t.fetchWord_toNat, hfa, hhigh, hlow]

end Sys2Proof.Machine
end

section
/-! SUPPORT. Decoding and encoding, row by row of the opcode table (O1 to O5). One equivalence says what decoding answers: a
word decodes to `i` exactly when it has the fixed bits of `i`'s row and `i`'s operands are the word's fields. -/

namespace Sys2Proof

/-! ### The fields of a masked word -/

/-- A field of a masked word is the field masked (R84). -/
theorem Decode.n1_and (op m : Word) : Decode.n1 (op &&& m) = Decode.n1 op &&& Decode.n1 m := BitVec.extractLsb'_and

theorem Decode.n_and (op m : Word) : Decode.n (op &&& m) = Decode.n op &&& Decode.n m := BitVec.extractLsb'_and

theorem Decode.kk_and (op m : Word) : Decode.kk (op &&& m) = Decode.kk op &&& Decode.kk m := BitVec.extractLsb'_and

/-- Every row fixes the group nibble. -/
theorem Decode.n1_mask (i : Instr) : Decode.n1 (tableRow i).2 = BitVec.allOnes 4 := by
  cases i <;> simp only [tableRow] <;> rfl

theorem Decode.n1_of_row {op : Word} {i : Instr} (h : op &&& (tableRow i).2 = (tableRow i).1) :
    Decode.n1 op = Decode.n1 (tableRow i).1 := by
  rw [← h, Decode.n1_and, Decode.n1_mask, BitVec.and_allOnes]

theorem Decode.n_of_and_F00F {op m : Word} (h : op &&& 0xF00F#16 = m) : Decode.n op = Decode.n m := by
  rw [← h, Decode.n_and]
  exact BitVec.and_allOnes.symm

theorem Decode.kk_of_and_F0FF {op m : Word} (h : op &&& 0xF0FF#16 = m) : Decode.kk op = Decode.kk m := by
  rw [← h, Decode.kk_and]
  exact BitVec.and_allOnes.symm

/-! ### The word of its fields -/

section
variable {op : Word} {a d : Nibble} {k : Byte}

theorem ofNibbles_of_fields (ha : Decode.n1 op = a) (hd : Decode.n op = d) :
    ofNibbles a (regNibble (Decode.x op)) (regNibble (Decode.y op)) d = op := by
  rw [← ha, ← hd, ofNibbles_fields]

theorem ofNibblesByte_of_fields (ha : Decode.n1 op = a) (hk : Decode.kk op = k) :
    ofNibblesByte a (regNibble (Decode.x op)) k = op := by
  apply BitVec.eq_of_toNat_eq
  rw [← ha, ← hk, ofNibblesByte_toNat, Decode.n1_toNat, regNibble_toNat, Decode.x_val, Decode.kk_toNat]
  omega

theorem ofNibbleAddr_of_fields (ha : Decode.n1 op = a) : ofNibbleAddr a (Decode.nnn op) = op := by
  apply BitVec.eq_of_toNat_eq
  rw [← ha, ofNibbleAddr_toNat, Decode.n1_toNat, Decode.nnn_toNat]
  omega

/-- A word of the group has the fixed bits of a row that fixes the group only. -/
theorem and_F000_of_fields (ha : Decode.n1 op = a) : op &&& 0xF000#16 = ofNibbles a 0 0 0 := by
  rw [← ofNibbles_of_fields ha rfl, ofNibbles_and_F000]

theorem and_F00F_of_fields (ha : Decode.n1 op = a) (hd : Decode.n op = d) : op &&& 0xF00F#16 = ofNibbles a 0 0 d := by
  rw [← ofNibbles_of_fields ha hd, ofNibbles_and_F00F]

theorem and_F0FF_of_fields (ha : Decode.n1 op = a) (hk : Decode.kk op = k) :
    op &&& 0xF0FF#16 = ofNibblesByte a 0 k := by
  rw [← ofNibblesByte_of_fields ha hk]
  exact Laws.FixedBits.sub_row _ _ _

/-- Clearing field y (R86, R92). -/
theorem and_FF0F_of_fields (ha : Decode.n1 op = a) (hd : Decode.n op = d) :
    op &&& 0xFF0F#16 = ofNibbles a (regNibble (Decode.x op)) 0 d := by
  have h := ofNibbles_and a (regNibble (Decode.x op)) (regNibble (Decode.y op)) d 0xF#4 0xF#4 0#4 0xF#4
  rw [ofNibbles_of_fields ha hd] at h
  have hF (b : Nibble) : b &&& 0xF#4 = b := BitVec.and_allOnes
  rwa [hF, hF, hF, BitVec.and_zero] at h

end

/-! ### The fields of an encoded word -/

section
variable (a b c d : Nibble) (r : RegIx) (k : Byte)

@[simp] theorem Decode.x_ofNibbles : Decode.x (ofNibbles a (regNibble r) c d) = r := by
  apply Fin.ext
  rw [Decode.x_val, ofNibbles_toNat, regNibble_toNat]
  omega

@[simp] theorem Decode.y_ofNibbles : Decode.y (ofNibbles a b (regNibble r) d) = r := by
  apply Fin.ext
  rw [Decode.y_val, ofNibbles_toNat, regNibble_toNat]
  omega

@[simp] theorem Decode.n_ofNibbles : Decode.n (ofNibbles a b c d) = d := by
  apply BitVec.eq_of_toNat_eq
  rw [Decode.n_toNat, ofNibbles_toNat]
  omega

@[simp] theorem Decode.x_ofNibblesByte : Decode.x (ofNibblesByte a (regNibble r) k) = r := by
  rw [ofNibblesByte_eq, Decode.x_ofNibbles]

@[simp] theorem Decode.kk_ofNibblesByte : Decode.kk (ofNibblesByte a b k) = k := by
  apply BitVec.eq_of_toNat_eq
  rw [Decode.kk_toNat, ofNibblesByte_toNat]
  omega

@[simp] theorem Decode.nnn_ofNibbleAddr (nnn : Addr) : Decode.nnn (ofNibbleAddr a nnn) = nnn := by
  apply BitVec.eq_of_toNat_eq
  rw [Decode.nnn_toNat, ofNibbleAddr_toNat]
  omega

end

/-! ### What decoding answers -/

/-- The instruction of `i`'s row with its operands read from the fields of a word (R26, R82). -/
def Instr.withOperandsOf (op : Word) : Instr → Instr
  | .cls => .cls
  | .ret => .ret
  | .jp _ => .jp (Decode.nnn op)
  | .call _ => .call (Decode.nnn op)
  | .seVxKk _ _ => .seVxKk (Decode.x op) (Decode.kk op)
  | .sneVxKk _ _ => .sneVxKk (Decode.x op) (Decode.kk op)
  | .seVxVy _ _ => .seVxVy (Decode.x op) (Decode.y op)
  | .ldVxKk _ _ => .ldVxKk (Decode.x op) (Decode.kk op)
  | .addVxKk _ _ => .addVxKk (Decode.x op) (Decode.kk op)
  | .ldVxVy _ _ => .ldVxVy (Decode.x op) (Decode.y op)
  | .orVxVy _ _ => .orVxVy (Decode.x op) (Decode.y op)
  | .andVxVy _ _ => .andVxVy (Decode.x op) (Decode.y op)
  | .xorVxVy _ _ => .xorVxVy (Decode.x op) (Decode.y op)
  | .addVxVy _ _ => .addVxVy (Decode.x op) (Decode.y op)
  | .subVxVy _ _ => .subVxVy (Decode.x op) (Decode.y op)
  | .shrVx _ => .shrVx (Decode.x op)
  | .subnVxVy _ _ => .subnVxVy (Decode.x op) (Decode.y op)
  | .shlVx _ => .shlVx (Decode.x op)
  | .sneVxVy _ _ => .sneVxVy (Decode.x op) (Decode.y op)
  | .ldINnn _ => .ldINnn (Decode.nnn op)
  | .jpV0 _ => .jpV0 (Decode.nnn op)
  | .rndVxKk _ _ => .rndVxKk (Decode.x op) (Decode.kk op)
  | .drw _ _ _ => .drw (Decode.x op) (Decode.y op) (Decode.n op).toNat
  | .skpVx _ => .skpVx (Decode.x op)
  | .sknpVx _ => .sknpVx (Decode.x op)
  | .ldVxDt _ => .ldVxDt (Decode.x op)
  | .ldVxK _ => .ldVxK (Decode.x op)
  | .ldDtVx _ => .ldDtVx (Decode.x op)
  | .ldStVx _ => .ldStVx (Decode.x op)
  | .addIVx _ => .addIVx (Decode.x op)
  | .ldFVx _ => .ldFVx (Decode.x op)
  | .ldBVx _ => .ldBVx (Decode.x op)
  | .ldMemVx _ => .ldMemVx (Decode.x op)
  | .ldVxMem _ => .ldVxMem (Decode.x op)

@[simp] theorem tableRow_withOperandsOf (op : Word) (i : Instr) : tableRow (i.withOperandsOf op) = tableRow i := by
  cases i <;> rfl

/-- The height read from a word is a nibble (R83). -/
theorem wellFormed_withOperandsOf (op : Word) (i : Instr) : (i.withOperandsOf op).wellFormed = true := by
  cases i with
  | drw => exact decide_eq_true (Decode.n op).isLt
  | _ => rfl

/-- `i` is what the word `op` says by `i`'s row: the word has the row's fixed bits, and `i`'s operands are its fields. -/
structure Instr.ReadFrom (op : Word) (i : Instr) : Prop where
  row : op &&& (tableRow i).2 = (tableRow i).1
  operands : i.withOperandsOf op = i

section
variable {op : Word} {i : Instr}

theorem Decode.byGroup_eq_group8 (hg : Decode.n1 op = 0x8#4) : Decode.byGroup op = Decode.group8 op := by
  rw [Decode.byGroup, hg]
  rfl

theorem Decode.byGroup_eq_groupE (hg : Decode.n1 op = 0xE#4) : Decode.byGroup op = Decode.groupE op := by
  rw [Decode.byGroup, hg]
  rfl

theorem Decode.byGroup_eq_groupF (hg : Decode.n1 op = 0xF#4) : Decode.byGroup op = Decode.groupF op := by
  rw [Decode.byGroup, hg]
  rfl

/-- A word with the fixed bits of a row decodes to that row's instruction, with the word's fields as operands (R84). -/
theorem decode_of_row (h : op &&& (tableRow i).2 = (tableRow i).1) : decode op = .ok (i.withOperandsOf op) := by
  rw [decode_eq_ok]
  have hg := Decode.n1_of_row h
  cases i with
  | cls | ret =>
    obtain rfl := BitVec.and_allOnes.symm.trans h
    rfl
  | jp | call | seVxKk | sneVxKk | ldVxKk | addVxKk | ldINnn | jpV0 | rndVxKk | drw =>
    simp only [tableRow] at h hg
    rw [Decode.byGroup, hg]
    rfl
  | seVxVy | sneVxVy =>
    simp only [tableRow] at h hg
    rw [Decode.byGroup, hg]
    exact if_pos (Decode.n_of_and_F00F h)
  | ldVxVy | orVxVy | andVxVy | xorVxVy | addVxVy | subVxVy | shrVx | subnVxVy | shlVx =>
    simp only [tableRow] at h hg
    rw [Decode.byGroup_eq_group8 hg, Decode.group8, Decode.n_of_and_F00F h]
    rfl
  | skpVx | sknpVx =>
    simp only [tableRow] at h hg
    rw [Decode.byGroup_eq_groupE hg, Decode.groupE, Decode.kk_of_and_F0FF h]
    rfl
  | ldVxDt | ldVxK | ldDtVx | ldStVx | addIVx | ldFVx | ldBVx | ldMemVx | ldVxMem =>
    simp only [tableRow] at h hg
    rw [Decode.byGroup_eq_groupF hg, Decode.groupF, Decode.kk_of_and_F0FF h]
    rfl

theorem Decode.group8_readFrom (hg : Decode.n1 op = 0x8#4) (h : Decode.group8 op = some i) : i.ReadFrom op := by
  unfold Decode.group8 at h
  split at h <;> cases h
  all_goals
    have hrow := and_F00F_of_fields hg ‹Decode.n op = _›
    exact ⟨hrow, rfl⟩

theorem Decode.groupE_readFrom (hg : Decode.n1 op = 0xE#4) (h : Decode.groupE op = some i) : i.ReadFrom op := by
  unfold Decode.groupE at h
  split at h <;> cases h
  all_goals
    have hrow := and_F0FF_of_fields hg ‹Decode.kk op = _›
    exact ⟨hrow, rfl⟩

theorem Decode.groupF_readFrom (hg : Decode.n1 op = 0xF#4) (h : Decode.groupF op = some i) : i.ReadFrom op := by
  unfold Decode.groupF at h
  split at h <;> cases h
  all_goals
    have hrow := and_F0FF_of_fields hg ‹Decode.kk op = _›
    exact ⟨hrow, rfl⟩

/-- The opcode map by its cases: one for each value of the group nibble, in order, and the one that cannot be. -/
theorem Decode.byGroup_readFrom (h : Decode.byGroup op = some i) : i.ReadFrom op := by
  unfold Decode.byGroup at h
  split at h
  case h_1 =>
    split_ifs at h with hcls hret <;> cases h
    · exact ⟨hcls ▸ rfl, rfl⟩
    · exact ⟨hret ▸ rfl, rfl⟩
  case h_6 hg | h_10 hg =>
    split at h <;> cases h
    have hrow := and_F00F_of_fields hg ‹Decode.n op = _›
    exact ⟨hrow, rfl⟩
  case h_9 hg => exact Decode.group8_readFrom hg h
  case h_15 hg => exact Decode.groupE_readFrom hg h
  case h_16 hg => exact Decode.groupF_readFrom hg h
  case h_17 => cases h
  all_goals
    cases h
    have hrow := and_F000_of_fields ‹Decode.n1 op = _›
    exact ⟨hrow, rfl⟩

/-- A word decodes to exactly the instruction it spells by that instruction's row (R84). -/
theorem decode_eq_ok_iff_readFrom : decode op = .ok i ↔ i.ReadFrom op :=
  ⟨fun h => Decode.byGroup_readFrom ((decode_eq_ok op i).mp h),
    fun ⟨hrow, hi⟩ => (decode_of_row hrow).trans (congrArg _ hi)⟩

end

/-! ### Encoding and decoding (O1, O2) -/

/-- An encoded word holds the operands at their fields (R92). -/
theorem withOperandsOf_encode (i : Instr) (h : i.wellFormed = true) : i.withOperandsOf (encode i) = i := by
  cases i with
  | drw x y n =>
    have hn : n < 16 := of_decide_eq_true h
    simp [Instr.withOperandsOf, encode, Nat.mod_eq_of_lt hn]
  | cls | ret => rfl
  | _ => simp [Instr.withOperandsOf, encode]

/-- Every instruction's word has the fixed bits of its row. -/
theorem encode_and_mask (i : Instr) : encode i &&& (tableRow i).2 = (tableRow i).1 := by
  cases i with
  | cls | ret => rfl
  | jp | call | ldINnn | jpV0 => exact Laws.FixedBits.addr_row _ _
  | seVxKk | sneVxKk | ldVxKk | addVxKk | rndVxKk => exact Laws.FixedBits.byte_row _ _ _
  | drw => exact ofNibbles_and_F000 _ _ _ _
  | skpVx | sknpVx | ldVxDt | ldVxK | ldDtVx | ldStVx | addIVx | ldFVx | ldBVx | ldMemVx | ldVxMem =>
    exact Laws.FixedBits.sub_row _ _ _
  | _ => exact ofNibbles_and_F00F _ _ _ _

/-- Settles O1: the word has the fixed bits of the instruction's row, and its fields are the operands. -/
theorem decodeOfEncodeIsTheInstruction : Obligations.DecodeOfEncodeIsTheInstruction := fun i h =>
  decode_eq_ok_iff_readFrom.mpr ⟨encode_and_mask i, withOperandsOf_encode i h⟩

section
variable {op : Word}

/-- A word of a row that reads every field is the word of what it decodes to (R92). -/
theorem encode_withOperandsOf {i : Instr} (h : op &&& (tableRow i).2 = (tableRow i).1) (hshr : ∀ x, i ≠ .shrVx x)
    (hshl : ∀ x, i ≠ .shlVx x) : encode (i.withOperandsOf op) = op := by
  have hg := Decode.n1_of_row h
  cases i with
  | cls | ret => exact (BitVec.and_allOnes.symm.trans h).symm
  | jp | call | ldINnn | jpV0 =>
    simp only [tableRow] at hg
    exact ofNibbleAddr_of_fields hg
  | seVxKk | sneVxKk | ldVxKk | addVxKk | rndVxKk =>
    simp only [tableRow] at hg
    exact ofNibblesByte_of_fields hg rfl
  | seVxVy | sneVxVy | ldVxVy | orVxVy | andVxVy | xorVxVy | addVxVy | subVxVy | subnVxVy =>
    simp only [tableRow] at h hg
    exact ofNibbles_of_fields hg (Decode.n_of_and_F00F h)
  | shrVx x => exact absurd rfl (hshr x)
  | shlVx x => exact absurd rfl (hshl x)
  | drw =>
    simp only [tableRow] at hg
    exact ofNibbles_of_fields hg (by rw [BitVec.ofNat_toNat, BitVec.setWidth_eq])
  | skpVx | sknpVx | ldVxDt | ldVxK | ldDtVx | ldStVx | addIVx | ldFVx | ldBVx | ldMemVx | ldVxMem =>
    simp only [tableRow] at h hg
    exact ofNibblesByte_of_fields hg (Decode.kk_of_and_F0FF h)

theorem encode_shrVx_of_row (h : op &&& 0xF00F#16 = 0x8006#16) : encode (.shrVx (Decode.x op)) = op &&& 0xFF0F#16 :=
  (and_FF0F_of_fields (Decode.n1_of_row (i := .shrVx 0) h) (Decode.n_of_and_F00F h)).symm

theorem encode_shlVx_of_row (h : op &&& 0xF00F#16 = 0x800E#16) : encode (.shlVx (Decode.x op)) = op &&& 0xFF0F#16 :=
  (and_FF0F_of_fields (Decode.n1_of_row (i := .shlVx 0) h) (Decode.n_of_and_F00F h)).symm

end

/-- Settles O2: a word of the row of SHR or SHL decodes to it, and no other row ignores a field. -/
theorem encodeOfDecodeIsTheWord : Obligations.EncodeOfDecodeIsTheWord := by
  intro op i hd
  obtain ⟨hrow, hi⟩ := decode_eq_ok_iff_readFrom.mp hd
  refine ⟨hi ▸ wellFormed_withOperandsOf op i, ?_⟩
  split
  next hshift =>
    rcases hshift with h | h
    · obtain rfl := Except.ok.inj (hd.symm.trans (decode_of_row (i := .shrVx 0) h))
      exact encode_shrVx_of_row h
    · obtain rfl := Except.ok.inj (hd.symm.trans (decode_of_row (i := .shlVx 0) h))
      exact encode_shlVx_of_row h
  next hshift =>
    have hshr : ∀ x, i ≠ .shrVx x := by
      rintro x rfl
      exact hshift (.inl hrow)
    have hshl : ∀ x, i ≠ .shlVx x := by
      rintro x rfl
      exact hshift (.inr hrow)
    rw [← hi, encode_withOperandsOf hrow hshr hshl]

/-! ### The rows of the table (O3) -/

theorem tableRow_mem_tableRows (i : Instr) : tableRow i ∈ tableRows := by
  cases i <;> simp [tableRows, tableRow]

theorem exists_tableRow_of_mem {row : Word × Word} (h : row ∈ tableRows) : ∃ i, tableRow i = row := by
  rcases List.mem_append.mp h with h | h
  all_goals
    obtain ⟨i, -, hi⟩ := List.mem_map.mp h
    exact ⟨i, hi⟩

/-- A word matches a row exactly when it decodes to an instruction of the row. -/
theorem matches_iff_decode {op : Word} {row : Word × Word} (h : row ∈ tableRows) :
    op &&& row.2 = row.1 ↔ ∃ i, decode op = .ok i ∧ tableRow i = row := by
  constructor
  · intro hop
    obtain ⟨i, rfl⟩ := exists_tableRow_of_mem h
    exact ⟨_, decode_of_row hop, tableRow_withOperandsOf op i⟩
  · rintro ⟨i, hd, rfl⟩
    exact (decode_eq_ok_iff_readFrom.mp hd).row

/-- A word that matches two rows decodes to one instruction, whose row both are (R84). -/
theorem row_unique {op : Word} {r r' : Word × Word} (hr : r ∈ tableRows) (hr' : r' ∈ tableRows)
    (h : op &&& r.2 = r.1) (h' : op &&& r'.2 = r'.1) : r = r' := by
  obtain ⟨i, hd, rfl⟩ := (matches_iff_decode hr).mp h
  obtain ⟨j, hd', rfl⟩ := (matches_iff_decode hr').mp h'
  rw [Except.ok.inj (hd.symm.trans hd')]

theorem tableRows_nodup : tableRows.Nodup := by decide

theorem decode_refuses_iff_no_row (op : Word) :
    decode op = .error (.invalidOpcode op) ↔ ∀ row ∈ tableRows, op &&& row.2 ≠ row.1 := by
  constructor
  · intro hd row hrow hop
    obtain ⟨i, hi, -⟩ := (matches_iff_decode hrow).mp hop
    cases hd.symm.trans hi
  · intro hno
    cases hd : decode op with
    | ok i => exact absurd (decode_eq_ok_iff_readFrom.mp hd).row (hno _ (tableRow_mem_tableRows i))
    | error e => rw [((decode_eq_error op e).mp hd).2]

/-- Settles O3: the rows are 34 different ones, and decoding decides which one a word matches. -/
theorem decodeSelectsTheMatchingRow : Obligations.DecodeSelectsTheMatchingRow :=
  ⟨rfl, tableRows_nodup.imp_of_mem fun hr hr' hne _ ⟨h, h'⟩ => hne (row_unique hr hr' h h'),
    fun op => ⟨fun _ hrow => matches_iff_decode hrow, decode_refuses_iff_no_row op⟩⟩

/-! ### The invalid words (O4) -/

section
variable (op : Word)

theorem Decode.group8_eq_none : Decode.group8 op = none ↔ Decode.n op ∈ [0x8#4, 0x9, 0xA, 0xB, 0xC, 0xD, 0xF] := by
  unfold Decode.group8
  split
  case h_10 =>
    generalize Decode.n op = d at *
    revert d
    decide
  all_goals simp [‹Decode.n op = _›]

theorem Decode.groupE_eq_none : Decode.groupE op = none ↔ Decode.kk op ∉ [0x9E#8, 0xA1] := by
  unfold Decode.groupE
  split <;> simp_all

theorem Decode.groupF_eq_none :
    Decode.groupF op = none ↔ Decode.kk op ∉ [0x07#8, 0x0A, 0x15, 0x18, 0x1E, 0x29, 0x33, 0x55, 0x65] := by
  unfold Decode.groupF
  split <;> simp_all

end

/-- Settles O4: group by group of the opcode map (R85). A group the disjunction does not name refuses no word. -/
theorem invalidWordsAreThoseOfTheSixGroups : Obligations.InvalidWordsAreThoseOfTheSixGroups := by
  intro op
  rw [decode_eq_error, and_iff_left rfl]
  unfold Decode.byGroup
  split
  case h_1 hg => simp [hg, ite_eq_iff]
  case h_6 hg | h_10 hg => simp [hg]
  case h_9 hg => simp [hg, Decode.group8_eq_none]
  case h_15 hg => simp [hg, Decode.groupE_eq_none]
  case h_16 hg => simp [hg, Decode.groupF_eq_none]
  case h_17 =>
    exfalso
    generalize Decode.n1 op = g at *
    revert g
    decide
  all_goals simp [‹Decode.n1 op = _›]

/-! ### The word as match and operands (O5) -/

/-- Operands are set nibble by nibble (R92). -/
theorem ofNibbles_or (a b c d a' b' c' d' : Nibble) :
    ofNibbles a b c d ||| ofNibbles a' b' c' d' = ofNibbles (a ||| a') (b ||| b') (c ||| c') (d ||| d') := by
  rw [ofNibbles_eq_append, ofNibbles_eq_append, ofNibbles_eq_append]
  exact BitVec.or_append.trans (congrArg _ (BitVec.or_append.trans (congrArg _ BitVec.or_append)))

section
variable (a d : Nibble) (x y : RegIx) (k : Byte)

theorem xField_eq : BitVec.ofNat 16 x.val <<< 8 = ofNibbles 0 (regNibble x) 0 0 := by
  apply BitVec.eq_of_toNat_eq
  simp [ofNibbles_toNat, regNibble_toNat, Nat.shiftLeft_eq]
  omega

theorem yField_eq : BitVec.ofNat 16 y.val <<< 4 = ofNibbles 0 0 (regNibble y) 0 := by
  apply BitVec.eq_of_toNat_eq
  simp [ofNibbles_toNat, regNibble_toNat, Nat.shiftLeft_eq]
  omega

theorem nField_eq {n : Nat} (hn : n < 16) : BitVec.ofNat 16 n = ofNibbles 0 0 0 (BitVec.ofNat 4 n) := by
  apply BitVec.eq_of_toNat_eq
  simp [ofNibbles_toNat]
  omega

theorem kkField_eq : BitVec.ofNat 16 k.toNat = ofNibblesByte 0 0 k := by
  simp [ofNibblesByte]

theorem nnnField_eq (nnn : Addr) : BitVec.ofNat 16 nnn.toNat = ofNibbleAddr 0 nnn := by
  simp [ofNibbleAddr]

/-- The `nnn` format. -/
theorem ofNibbleAddr_eq_or (nnn : Addr) : ofNibbleAddr a nnn = ofNibbles a 0 0 0 ||| BitVec.ofNat 16 nnn.toNat := by
  rw [nnnField_eq, ofNibbleAddr_eq, ofNibbleAddr_eq, ofNibbles_or]
  simp

/-- The `xkk` format. -/
theorem ofNibblesByte_eq_or_xkk :
    ofNibblesByte a (regNibble x) k
      = ofNibbles a 0 0 0 ||| (BitVec.ofNat 16 x.val <<< 8 ||| BitVec.ofNat 16 k.toNat) := by
  rw [xField_eq, kkField_eq, ofNibblesByte_eq, ofNibblesByte_eq, ofNibbles_or, ofNibbles_or]
  simp

/-- The `x` format, the low byte fixed. -/
theorem ofNibblesByte_eq_or_x :
    ofNibblesByte a (regNibble x) k = ofNibblesByte a 0 k ||| BitVec.ofNat 16 x.val <<< 8 := by
  rw [xField_eq, ofNibblesByte_eq, ofNibblesByte_eq, ofNibbles_or]
  simp

/-- The `xy` format, the last nibble fixed. -/
theorem ofNibbles_eq_or_xy :
    ofNibbles a (regNibble x) (regNibble y) d
      = ofNibbles a 0 0 d ||| (BitVec.ofNat 16 x.val <<< 8 ||| BitVec.ofNat 16 y.val <<< 4) := by
  rw [xField_eq, yField_eq, ofNibbles_or, ofNibbles_or]
  simp

/-- The `xy` format with y = 0, as SHR and SHL are written. -/
theorem ofNibbles_eq_or_x : ofNibbles a (regNibble x) 0 d = ofNibbles a 0 0 d ||| BitVec.ofNat 16 x.val <<< 8 := by
  rw [xField_eq, ofNibbles_or]
  simp

/-- The `xyn` format. -/
theorem ofNibbles_eq_or_xyn {n : Nat} (hn : n < 16) :
    ofNibbles a (regNibble x) (regNibble y) (BitVec.ofNat 4 n) = ofNibbles a 0 0 0
      ||| (BitVec.ofNat 16 x.val <<< 8 ||| BitVec.ofNat 16 y.val <<< 4 ||| BitVec.ofNat 16 n) := by
  rw [xField_eq, yField_eq, nField_eq hn, ofNibbles_or, ofNibbles_or, ofNibbles_or]
  simp

end

/-- Settles O5: format by format (R82). -/
theorem encodeIsMatchWithOperands : Obligations.EncodeIsMatchWithOperands := by
  intro i hwf
  cases i with
  | cls | ret => rfl
  | jp | call | ldINnn | jpV0 => exact ofNibbleAddr_eq_or _ _
  | seVxKk | sneVxKk | ldVxKk | addVxKk | rndVxKk => exact ofNibblesByte_eq_or_xkk _ _ _
  | drw => exact ofNibbles_eq_or_xyn _ _ _ (of_decide_eq_true hwf)
  | shrVx | shlVx => exact ofNibbles_eq_or_x _ _ _
  | seVxVy | sneVxVy | ldVxVy | orVxVy | andVxVy | xorVxVy | addVxVy | subVxVy | subnVxVy =>
    exact ofNibbles_eq_or_xy _ _ _ _
  | skpVx | sknpVx | ldVxDt | ldVxK | ldDtVx | ldStVx | addIVx | ldFVx | ldBVx | ldMemVx | ldVxMem =>
    exact ofNibblesByte_eq_or_x _ _ _

end Sys2Proof
end

section
/-! SUPPORT. One step of the core: its fetch (O7), what it runs (O8, O11), and the two steps that change nothing (O9, O26). -/

namespace Sys2Proof.Machine

section
variable {s : State}

/-- A PC of 0xFFE or more wraps to 0x200 (R102). -/
theorem State.fetchAddr_of_wrap (h : 0xFFE ≤ s.pc.toNat) : s.fetchAddr = 0x200 := if_pos h

theorem State.fetchAddr_of_lt (h : s.pc.toNat < 0xFFE) : s.fetchAddr = s.pc := if_neg (not_le.mpr h)

theorem cycle_of_fault (h : s.fault = true) : cycle s = .next s := if_pos h

theorem State.outcome_of_fault (h : s.fault = true) : s.outcome = .fault s.faultCause := if_pos h

/-- Writing back the PC and the status bits a state has changes nothing. -/
theorem State.withStatus_self {p : Word} {b c : Bool} (hp : s.pc = p) (hb : s.await = b) (hc : s.fbChanged = c) :
    { s with pc := p, await := b, fbChanged := c } = s := by
  subst hp hb hc
  rfl

end

theorem tickDownBy_toNat (n : Nat) (t : Byte) : (tickDownBy n t).toNat = t.toNat - n := by
  have ht := t.isLt
  rw [tickDownBy, BitVec.toNat_ofNat, Nat.mod_eq_of_lt (by omega)]

/-- Settles O7: the fetch address is below 0xFFE, so that both bytes lie in memory. -/
theorem fetchAddressAndWord : Obligations.FetchAddressAndWord := fun s =>
  ⟨State.fetchAddr_of_wrap, State.fetchAddr_of_lt, by have := s.fetchAddr_lt; omega, s.fetchWord_toNat⟩

/-- Settles O8: a step is the core's step and then the end of the request, which has its own frame. -/
theorem stepRunsTheDecodedInstruction : Obligations.StepRunsTheDecodedInstruction :=
  ⟨fun s _ hf ha hd => congrArg (thenNext · State.endStep) (cycle_of_decode s hf ha hd), step_of_cycle,
    fun t => ⟨onlyChanges_endStep t, tickDownBy_toNat _ _, tickDownBy_toNat _ _, rfl, rfl⟩⟩

/-- Settles O9: the latch is read before anything else, by the step and by the outcome. -/
theorem faultedCoreStaysAsItIs : Obligations.FaultedCoreStaysAsItIs := fun _ hf =>
  ⟨cycle_of_fault hf, State.outcome_of_fault hf, rfl⟩

/-- Settles O11: a row the word matches is the row of what it decodes to, and a word without one is refused. -/
theorem stepDecodesByTheTable : Obligations.StepDecodesByTheTable := by
  intro s hf ha
  constructor
  · intro row hrow hop
    obtain ⟨i, hd, hi⟩ := (matches_iff_decode hrow).mp hop
    exact ⟨i, hi, hd, cycle_of_decode s hf ha hd⟩
  · intro hno
    have hd := (decode_refuses_iff_no_row s.fetchWord).mpr hno
    exact ⟨_, cycle_of_invalid s hf ha hd, faultLatched_takeFault s .invalidOpcode⟩

/-- Settles O26: the jump writes the PC, and the completion the status bits, that stand there already. -/
theorem selfJumpChangesNothing : Obligations.SelfJumpChangesNothing := by
  intro s a hf hawait hfb hpc hlow hhigh hd
  have hpcNat : s.pc.toNat = a.toNat := by
    rw [hpc, BitVec.toNat_setWidth]
    omega
  have hfa : 0x200 ≤ s.fetchAddr.toNat := by
    rw [State.fetchAddr_of_lt (by omega)]
    omega
  rw [cycle_of_decode s hf hfa hd, exec_jp]
  exact congrArg _ (State.withStatus_self hpc hawait hfb)

end Sys2Proof.Machine
end

section
/-! SUPPORT. The way a step ends, read from the state after it: the outcome (O12), the control state (O27, O47) and the frame
update (O58). -/

namespace Sys2Proof.Machine

/-! ### The outcome and the control state -/

/-- The outcome of a step of a core that is not faulted, by the way the step ends (R109 to R111). -/
theorem cycle_outcome (s : State) (hf : s.fault = false) :
    ∃ t, cycle s = .next t ∧ (∀ c, stepFault s = some c → t.outcome = .fault c)
      ∧ (stepFault s = none → Suspends s → t.outcome = .awaitingKey)
      ∧ (stepFault s = none → ¬ Suspends s → t.outcome = .executed) := by
  rcases cycle_unfaulted s hf with ⟨c, hsf, -, hc⟩ | ⟨i, -, hsf, hd, hc, hend⟩
  · exact ⟨_, hc, by simp [hsf], by simp [hsf], by simp [hsf]⟩
  · rw [hc, hsf, suspends_iff s i hd]
    rcases hend with ⟨he, hwait⟩ | ⟨t, he, hrun, hb⟩
    · exact ⟨_, he, by simp, fun _ _ => s.outcome_suspend hf, fun _ h => absurd hwait h⟩
    · refine ⟨_, he, by simp, ?_, fun _ _ => t.outcome_complete _ (hb.fault.trans hf)⟩
      rintro - ⟨⟨x, hx⟩, hkeys⟩
      exact absurd hkeys (hrun x hx)

/-- Settles O12, by the way the step ends. -/
theorem stepOutcomeIsDetermined : Obligations.StepOutcomeIsDetermined := cycle_outcome

/-- The control state the core is in after a step with an outcome (R122). -/
def StepOutcome.control : StepOutcome → ControlState
  | .executed => .ready
  | .awaitingKey => .awaitKey
  | .fault _ => .faulted

theorem State.control_eq_outcome_control (s : State) : s.control = s.outcome.control := by
  unfold State.control State.outcome
  cases s.fault <;> cases s.await <;> rfl

theorem State.outcome_and_control {s : State} {o : StepOutcome} (h : s.outcome = o) :
    s.outcome = o ∧ s.control = o.control :=
  ⟨h, h ▸ s.control_eq_outcome_control⟩

/-- Settles O27: the control state is that of the outcome, and a tick and a load write neither of its two bits. -/
theorem controlStateTransitions : Obligations.ControlStateTransitions := by
  refine ⟨fun s => ⟨s.control_eq_ready, s.control_eq_awaitKey, s.control_eq_faulted⟩, fun s => ?_,
    fun s a b => ⟨rfl, rfl, rfl⟩⟩
  cases hf : s.fault with
  | true =>
    have hctl := s.control_eq_faulted.mpr hf
    exact ⟨s, cycle_of_fault hf, fun _ => hctl, fun h => absurd hctl h, fun h => absurd hctl h, fun h => absurd hctl h⟩
  | false =>
    have hctl : s.control ≠ .faulted := fun h => by simp [s.control_eq_faulted.mp h] at hf
    obtain ⟨t, hc, hfault, hwait, hdone⟩ := cycle_outcome s hf
    exact ⟨t, hc, fun h => absurd h hctl, fun _ hsf hns => State.outcome_and_control (hdone hsf hns),
      fun _ hsf hs => State.outcome_and_control (hwait hsf hs),
      fun _ c hsf => State.outcome_and_control (hfault c hsf)⟩

/-! ### The key wait -/

/-- A core that waits stands where it fetches (R43), so suspending it again changes nothing (R208). -/
theorem State.Inv.suspend_self {s : State} (h : s.Inv) (hawait : s.await = true) : s.suspend = s := by
  obtain ⟨hfb, -, hpc, -⟩ := h.waiting hawait
  exact State.withStatus_self (State.fetchAddr_of_lt hpc).symm hawait hfb

/-- With a key pressed the lowest one is found (R205). -/
theorem exists_lowestKey {keys : BitVec 16} (h : keys ≠ 0) : ∃ k, lowestKey keys = some k :=
  Option.ne_none_iff_exists'.mp fun hk => h ((lowestKey_eq_none keys).mp hk)

/-- The key wait with a key pressed writes the number of the lowest pressed key (R205). -/
theorem lowest_of_exec_ldVxK {s t : State} {x k : RegIx} (hk : lowestKey s.keys = some k)
    (h : exec (.ldVxK x) s = .next t) :
    s.keys.getLsbD (t.readV x).toNat = true ∧ ∀ j < (t.readV x).toNat, s.keys.getLsbD j = false := by
  obtain rfl := Host.Outcome.next.inj ((exec_ldVxK_key s x k hk).symm.trans h)
  obtain ⟨hpressed, hlowest⟩ := lowestKey_eq_some s.keys k hk
  have hval : (((s.advance.writeV x (BitVec.ofNat 8 k.val)).complete false).readV x).toNat = k.val := by
    rw [State.readV_complete, State.readV_writeV, if_pos rfl, BitVec.toNat_ofNat, Nat.mod_eq_of_lt (by omega)]
  rw [hval]
  exact ⟨hpressed, fun j hj => hlowest ⟨j, hj.trans k.isLt⟩ hj⟩

/-- Settles O47: the step runs the key wait, which suspends or loads a key by the snapshot alone. -/
theorem keyWaitStateMachine : Obligations.KeyWaitStateMachine := by
  refine ⟨fun s x hf ha hd => ?_, fun s => rfl⟩
  have hcycle := cycle_of_decode s hf ha hd
  refine ⟨fun hkeys => ?_, fun hctl hinv hkeys => ?_, fun hkeys => ?_, fun b => ?_⟩
  · exact ⟨_, hcycle.trans (exec_ldVxK_wait s x hkeys), s.control_suspend hf, rfl⟩
  · obtain ⟨-, hawait⟩ := s.control_eq_awaitKey.mp hctl
    rw [hcycle, exec_ldVxK_wait s x hkeys, hinv.suspend_self hawait]
  · obtain ⟨k, hk⟩ := exists_lowestKey hkeys
    have he := exec_ldVxK_key s x k hk
    exact ⟨_, hcycle.trans he, State.control_complete _ _ hf, rfl, lowest_of_exec_ldVxK hk he⟩
  · calc cycle { s with await := b }
      _ = exec (.ldVxK x) (s.withUnread s.stack b s.fbChanged) :=
        cycle_of_decode (s.withUnread s.stack b s.fbChanged) hf ha hd
      _ = exec (.ldVxK x) s := exec_withStatus s b s.fbChanged _
      _ = cycle s := hcycle.symm

/-! ### The frame update -/

theorem State.frameUpdate_eq_some {s : State} (ho : s.outcome = .executed) (hfb : s.fbChanged = true) :
    s.frameUpdate = some s.fbPort := if_pos ⟨ho, hfb⟩

theorem State.frameUpdate_eq_none {s : State} (h : ¬ (s.outcome = .executed ∧ s.fbChanged = true)) :
    s.frameUpdate = none := if_neg h

/-- The key wait does not touch the display (R44). -/
theorem not_suspends_of_touchesDisplay {s : State} {i : Instr} (hd : decode s.fetchWord = .ok i)
    (hi : i.touchesDisplay = true) : ¬ Suspends s := by
  rw [suspends_iff s i hd]
  rintro ⟨⟨x, rfl⟩, -⟩
  cases hi

/-- Settles O58: FB_CHANGED says whether the step completed CLS or DRW, and such a step is EXECUTED. -/
theorem frameUpdateAfterAStep : Obligations.FrameUpdateAfterAStep := by
  intro s t hc
  refine ⟨fun hf => ?_, fun hf ⟨hsf, i, hd, hi⟩ => ?_, fun hf hno => ?_⟩
  · obtain rfl := Host.Outcome.next.inj ((cycle_of_fault hf).symm.trans hc)
    exact State.frameUpdate_eq_none (by simp [State.outcome_of_fault hf])
  all_goals
    obtain ⟨u, hu, -, hfb⟩ := cycle_status s hf
    obtain rfl := Host.Outcome.next.inj (hu.symm.trans hc)
  · obtain ⟨v, hv, -, -, hdone⟩ := cycle_outcome s hf
    obtain rfl := Host.Outcome.next.inj (hv.symm.trans hc)
    exact State.frameUpdate_eq_some (hdone hsf (not_suspends_of_touchesDisplay hd hi)) (hfb.mpr ⟨hsf, i, hd, hi⟩)
  · exact State.frameUpdate_eq_none fun ⟨_, h⟩ => hno (hfb.mp h)

end Sys2Proof.Machine
end

section
/-! SUPPORT. The block's ports: whole transactions (O55), the load port (O56), the frame port (O57), and the levels and codes
of the other outputs (O59). -/

namespace Sys2Proof.Machine

/-! ### Transactions -/

theorem tickDownBy_zero (t : Byte) : tickDownBy 0 t = t :=
  BitVec.eq_of_toNat_eq (by rw [tickDownBy_toNat, Nat.sub_zero])

theorem tickDown_toNat (t : Byte) : (tickDown t).toNat = t.toNat - 1 := by
  unfold tickDown
  split
  next h => simp [h]
  next h => bv_omega

/-- One more tick counts one further down (R210, R212). -/
theorem tickDownBy_succ (n : Nat) (t : Byte) : tickDownBy (n + 1) t = tickDown (tickDownBy n t) :=
  BitVec.eq_of_toNat_eq (by rw [tickDown_toNat, tickDownBy_toNat, tickDownBy_toNat, Nat.sub_add_eq])

theorem State.ticks_zero (s : State) : s.ticks 0 = s := by
  simp only [State.ticks, tickDownBy_zero]

theorem State.ticks_succ (s : State) (n : Nat) : s.ticks (n + 1) = (s.ticks n).tick := by
  simp only [State.ticks, State.tick, tickDownBy_succ]

theorem Transaction.afterLoad_steps (tr : Transaction) (s : State) : (tr.afterLoad s).steps = s.steps := by
  unfold Transaction.afterLoad
  split <;> rfl

/-- The step of a transaction is followed by the transaction's own tick, if it has one (R118). -/
theorem State.ticks_stepInput (tr : Transaction) (s : State) :
    s.ticks tr.stepInput.ticks = if tr.tick then s.tick else s := by
  unfold Transaction.stepInput
  split
  · rw [State.ticks_succ, State.ticks_zero]
  · exact s.ticks_zero

/-- The end of a request whose input stands first in the schedule. -/
theorem State.endStep_of_inputs {s : State} {i : StepInput} {rest : List StepInput} (h : s.inputs = i :: rest) :
    s.endStep = { s.ticks i.ticks with inputs := rest, steps := s.steps + 1 } := by
  simp only [State.endStep, State.input, h, List.tail_cons]

/-- The state a transaction's step begins in: the load write done, the transaction's input first in the schedule. -/
def Transaction.beforeStep (tr : Transaction) (s : State) : State :=
  { tr.afterLoad s with inputs := tr.stepInput :: s.inputs }

theorem transact_rst {tr : Transaction} (s : State) (h : tr.rst = true) : transact tr s = .next s.rst := if_pos h

theorem transact_step {tr : Transaction} (s : State) (hrst : tr.rst = false) (hreq : tr.stepReq = true) :
    transact tr s = step (tr.beforeStep s) := by
  simp [transact, hrst, hreq, Transaction.beforeStep]

theorem transact_idle {tr : Transaction} (s : State) (hrst : tr.rst = false) (hreq : tr.stepReq = false) :
    transact tr s = .next (if tr.tick then (tr.afterLoad s).tick else tr.afterLoad s) := by
  simp [transact, hrst, hreq]

/-- Settles O55: the core's step leaves the schedule alone, so the tick after it is that of the transaction's input. -/
theorem transactionOrder : Obligations.TransactionOrder := by
  refine fun tr s => ⟨transact_rst s, transact_idle s, fun hrst hreq => ?_⟩
  obtain ⟨w, hw, -, hinputs, hsteps⟩ := cycle_next (tr.beforeStep s)
  refine ⟨tr.beforeStep s, w, rfl, rfl, rfl, hw, ?_⟩
  have hcount : w.steps = s.steps := hsteps.trans (tr.afterLoad_steps s)
  rw [transact_step s hrst hreq, step_of_cycle _ w hw, State.endStep_of_inputs hinputs, State.ticks_stepInput, hcount]

/-! ### The load port -/

/-- The addresses of n bytes from b on, modulo 4096. -/
def addrsFrom (b n : Nat) : List Addr := (List.range n).map fun j => BitVec.ofNat 12 (b + j)

theorem addrsFrom_succ (b n : Nat) : addrsFrom b (n + 1) = BitVec.ofNat 12 b :: addrsFrom (b + 1) n := by
  simp only [addrsFrom, List.range_succ_eq_map, List.map_cons, List.map_map, Nat.add_zero]
  refine congrArg _ (List.map_congr_left fun j _ => congrArg (BitVec.ofNat 12) ?_)
  change b + (j + 1) = b + 1 + j
  omega

/-- Loading bytes one by one is a block write to the addresses that follow one another (R121, R284). -/
theorem State.loadFrom_eq_writeBytes (s : State) (b : Nat) (l : List Byte) :
    s.loadFrom (BitVec.ofNat 12 b) l = s.writeBytes ((addrsFrom b l.length).zip l) := by
  induction l generalizing s b with
  | nil => rfl
  | cons c rest ih =>
    have hnext : BitVec.ofNat 12 b + 1 = BitVec.ofNat 12 (b + 1) := (BitVec.ofNat_add b 1).symm
    rw [List.length_cons, addrsFrom_succ, List.zip_cons_cons, State.writeBytes, ← ih, ← hnext]
    rfl

theorem State.loadImage_eq_writeBytes (s : State) (image : List Byte) :
    s.loadImage image = s.writeBytes ((addrsFrom 0x200 image.length).zip image) :=
  s.loadFrom_eq_writeBytes 0x200 image

/-- Settles O56: an image of 3584 bytes or less ends with memory, so its addresses are distinct. -/
theorem loadPortStoresBytes : Obligations.LoadPortStoresBytes := by
  intro s a b image hlen
  refine ⟨?_, fun p hp => ?_, fun k hk => ?_, fun p hp => ?_⟩
  · exact (s.readByte_writeByte a a b).trans (if_pos rfl)
  · refine same_writeBytes s [(a, b)] p fun a' ha' hmem => hp ?_
    simpa [ha'] using hmem
  · rw [State.loadImage_eq_writeBytes]
    exact s.readByte_writeBytes_block 0x200 image (by omega) hk
  · rw [State.loadImage_eq_writeBytes]
    refine same_writeBytes s _ p fun a' ha' hmem => ?_
    rw [List.map_fst_zip (by simp [addrsFrom])] at hmem
    obtain ⟨k, hk, rfl⟩ := List.mem_map.mp hmem
    exact hp k (List.mem_range.mp hk) ha'

/-! ### The frame port -/

/-- Pixel number i of a list of pixels is bit i of the number they fold to, the first the least significant. -/
theorem testBit_foldr_pixels (l : List Bool) (i : Nat) :
    (l.foldr (fun (p : Bool) acc => 2 * acc + (if p then 1 else 0)) 0).testBit i = l.getD i false := by
  induction l generalizing i with
  | nil => simp
  | cons p ps ih =>
    cases i with
    | zero => cases p <;> simp [Nat.testBit_zero]
    | succ i =>
      have hhalf (n : Nat) : (2 * n + if p then 1 else 0) / 2 = n := by cases p <;> simp [Nat.mul_add_div]
      rw [List.foldr_cons, Nat.testBit_succ, hhalf, ih, List.getD_cons_succ]

/-- In rows of m entries laid end to end, entry c of row r is number r * m + c. -/
theorem getElem?_flatMap_of_length {α β : Type} (f : α → List β) {m : Nat} (hm : ∀ a, (f a).length = m) (l : List α)
    (r : Nat) {c : Nat} (hc : c < m) : (l.flatMap f)[r * m + c]? = l[r]?.bind fun a => (f a)[c]? := by
  induction l generalizing r with
  | nil => simp
  | cons a rest ih =>
    rw [List.flatMap_cons]
    cases r with
    | zero => simp [List.getElem?_append_left, hm, hc]
    | succ r =>
      rw [List.getElem?_append_right (by rw [hm, Nat.succ_mul]; omega), hm, Nat.succ_mul,
        show r * m + m + c - m = r * m + c by omega, ih, List.getElem?_cons_succ]

theorem framePixels_getD (fb : Frame) (r c : Nat) (hr : r < 32) (hc : c < 64) :
    (framePixels fb).getD (r * 64 + c) false = pixelAt fb r c := by
  rw [List.getD_eq_getElem?_getD, framePixels,
    getElem?_flatMap_of_length _ (fun row => row.length_toList) _ _ hc]
  simp [pixelAt, hr, hc]

/-- Settles O57: the port is the number the pixels fold to, which has 2048 bits. -/
theorem framePortLayout : Obligations.FramePortLayout := by
  intro s r c hr hc
  have hlt : r * 64 + c < 2048 := by omega
  rw [State.fbPort, BitVec.getLsbD_ofNat, testBit_foldr_pixels, framePixels_getD _ _ _ hr hc, decide_eq_true hlt,
    Bool.true_and]

/-! ### Levels and codes -/

/-- The code of the `outcome` port (R117). -/
theorem State.outcomeCode_of_outcome (s : State) :
    (s.outcome = .executed → s.outcomeCode = 0) ∧ (s.outcome = .awaitingKey → s.outcomeCode = 1)
      ∧ ∀ c, s.outcome = .fault c → s.outcomeCode = 2 := by
  unfold State.outcomeCode
  exact ⟨fun h => by rw [h], fun h => by rw [h], fun c h => by rw [h]⟩

theorem State.outcomeCode_ne_three (s : State) : s.outcomeCode ≠ 3 := by
  unfold State.outcomeCode
  cases s.outcome with
  | executed | awaitingKey => decide
  | fault c => exact (by decide : (2 : BitVec 2) ≠ 3)

/-- Settles O59: the codes outcome by outcome, and the period as the reciprocal of a frequency that is not 0. -/
theorem outputLevelsAndCodes : Obligations.OutputLevelsAndCodes := by
  refine ⟨fun s => ⟨decide_eq_true_iff, s.outcomeCode_ne_three, s.outcomeCode_of_outcome⟩, fun c hc => ?_, ?_, rfl⟩
  · rw [desiredPeriod_of_ne_zero c hc]
    exact one_div_mul_cancel (Nat.cast_ne_zero.mpr hc)
  · have hhz : State.reset.cfg.cycleHz = 700 := rfl
    rw [desiredPeriod_of_ne_zero _ (by rw [hhz]; decide), hhz, Nat.cast_ofNat]

end Sys2Proof.Machine
end

section
/-! SUPPORT. Control flow: jumps and skips (O28, O32), the stack (O29, O30), and CALL followed by RET (O31). -/

namespace Sys2Proof.Machine

/-! ### The shapes of the statements -/

/-- A row's encoding line, for any instruction of the row. -/
theorem encodedAs_row (i : Instr) : EncodedAs (tableRow i).1 (tableRow i).2 fun op => i.withOperandsOf op :=
  fun _ h => decode_of_row h

/-- The table of what an instruction writes is its frame, once it is known to complete with the latch as it was. -/
theorem completes_of_exec {i : Instr} {s t : State} {touched : Bool} {may : List Part} {post : State → Prop}
    (he : exec i s = .next (t.complete touched)) (hlatch : Part.latch.Same s t) (hmay : instrWrites i s ⊆ may)
    (hpost : post (t.complete touched)) : Completes i s touched (.pc :: may) post := by
  obtain ⟨u, hu, hkeeps⟩ := exec_keeps i s
  obtain rfl := Host.Outcome.next.inj (he.symm.trans hu)
  have hframe : OnlyChanges (controlParts ++ may) s (t.complete touched) := hkeeps.parts.mono <|
    List.append_subset.mpr ⟨List.subset_append_left _ _, List.subset_append_of_subset_right _ hmay⟩
  refine ⟨_, he, rfl, rfl, fun p hp => ?_, hpost⟩
  by_cases hl : p = .latch
  · subst hl
    exact hlatch
  · exact hframe p fun hm => (List.mem_cons.mp hm).elim hl hp

/-! ### Jumps and skips -/

/-- The fetch address as a number (R102). -/
theorem State.fetchAddr_toNat (s : State) :
    s.fetchAddr.toNat = if 0xFFE ≤ s.pc.toNat then 0x200 else s.pc.toNat :=
  apply_ite BitVec.toNat _ _ _

theorem State.jump_pc_toNat (s : State) (a : Addr) : (s.jump a).pc.toNat = a.toNat :=
  BitVec.toNat_setWidth_of_le (by decide)

section
variable {i : Instr} {s : State}

/-- A rule that jumps writes the PC alone. -/
theorem completes_jump {a : Addr} {n : Nat} (he : exec i s = .next ((s.advance.jump a).complete false))
    (hwrites : instrWrites i s = []) (ha : a.toNat = n) :
    Completes i s false [.pc] fun t => t.pc.toNat = n ∧ t.fetchAddr.toNat = if 0xFFE ≤ n then 0x200 else n := by
  have hpc : ((s.advance.jump a).complete false).pc.toNat = n := (State.jump_pc_toNat s.advance a).trans ha
  refine completes_of_exec he ⟨rfl, rfl, rfl, rfl⟩ (List.subset_nil.mpr hwrites) ⟨hpc, ?_⟩
  rw [State.fetchAddr_toNat, hpc]

/-- A rule that skips writes the PC alone (R107). -/
theorem completes_skipIf {c : Bool} {P : Prop} [Decidable P]
    (he : exec i s = .next ((s.advance.skipIf c).complete false)) (hc : c = true ↔ P) :
    Completes i s false [.pc] fun t => t.pc.toNat = s.fetchAddr.toNat + if P then 4 else 2 :=
  ⟨_, he, rfl, rfl, onlyChanges_skipIf s c, by simp only [skipIf_pc_toNat, hc]⟩

end

/-- Settles O28: both rules jump, to nnn and to V[0] + nnn reduced to twelve bits. -/
theorem jumpsSetPc : Obligations.JumpsSetPc :=
  ⟨encodedAs_row (.jp 0), encodedAs_row (.jpV0 0), fun s nnn =>
    ⟨completes_jump (exec_jp s nnn) rfl rfl, completes_jump (exec_jpV0 s nnn) rfl (BitVec.toNat_ofNat _ 12)⟩⟩

/-- Settles O32: each rule skips on its own comparison. -/
theorem registerSkips : Obligations.RegisterSkips :=
  ⟨encodedAs_row (.seVxKk 0 0), encodedAs_row (.sneVxKk 0 0), encodedAs_row (.seVxVy 0 0),
    encodedAs_row (.sneVxVy 0 0), fun s x y kk =>
      ⟨completes_skipIf (exec_seVxKk s x kk) beq_iff_eq, completes_skipIf (exec_sneVxKk s x kk) bne_iff_ne,
        completes_skipIf (exec_seVxVy s x y) beq_iff_eq, completes_skipIf (exec_sneVxVy s x y) bne_iff_ne⟩⟩

/-! ### The stack -/

section
variable {s : State} {j : Fin 16}

/-- The entry a push writes is the one SP pointed at. -/
theorem State.getElem_push_stack (w : Word) (h : s.sp.toNat = j.val) : (s.push w).stack[j] = w := by
  simp [h]

theorem State.popPc_sp_toNat {n : Nat} (h : s.sp.toNat = n + 1) : s.popPc.sp.toNat = n := by
  rw [State.popPc_sp]
  bv_omega

/-- A pop reads the entry below SP. -/
theorem State.popPc_pc_of_sp (h : s.sp.toNat = j.val + 1) : s.popPc.pc = s.stack[j] := by
  have htop : (s.sp - 1).toNat = j.val := State.popPc_sp_toNat h
  rw [State.popPc_pc, htop]
  simp

end

/-- Settles O29: the push writes the entry SP points at, and that SP is not 16 is the rule's own check. -/
theorem callPushesAndJumps : Obligations.CallPushesAndJumps := by
  refine ⟨encodedAs_row (.call 0), fun s nnn => ⟨fun j hj => ?_, fun hfull => ?_⟩⟩
  · have hroom : s.sp ≠ 16 := by bv_omega
    have hsp : (s.sp + 1).toNat = j.val + 1 := by bv_omega
    have hwrites : instrWrites (.call nnn) s ⊆ [.sp, .entry j] := by
      intro p
      simp [instrWrites, hj, Fin.val_inj, eq_comm]
    have hentry : (s.advance.push (s.fetchAddr + 2)).stack[j] = s.fetchAddr + 2 :=
      State.getElem_push_stack (s := s.advance) _ hj
    exact completes_of_exec (exec_call_push s nnn hroom) ⟨rfl, rfl, rfl, rfl⟩ hwrites
      ⟨State.jump_pc_toNat (s.advance.push (s.fetchAddr + 2)) nnn, hsp,
        (congrArg BitVec.toNat hentry).trans s.fetchAddr_add_two⟩
  · exact raises_of_takeFault _ s _ (exec_call_full s nnn (BitVec.eq_of_toNat_eq hfull)) (by decide)

/-- Settles O30: the pop writes PC and SP only, so the entry stays. -/
theorem retPopsThePc : Obligations.RetPopsThePc := by
  refine ⟨encodedAs_row .ret, fun s => ⟨fun j hj => ?_, fun hempty => ?_⟩⟩
  · have hne : s.sp ≠ 0 := by bv_omega
    exact completes_of_exec (exec_ret_pop s hne) ⟨rfl, rfl, rfl, rfl⟩ (List.Subset.refl _)
      ⟨State.popPc_pc_of_sp (s := s.advance) hj, State.popPc_sp_toNat (s := s.advance) hj⟩
  · exact raises_of_takeFault _ s _ (exec_ret_empty s (BitVec.eq_of_toNat_eq hempty)) (by decide)

/-- Settles O31: the pop takes the entry the push wrote. -/
theorem callThenRetResumes : Obligations.CallThenRetResumes := by
  obtain ⟨-, hcall⟩ := callPushesAndJumps
  obtain ⟨-, hret⟩ := retPopsThePc
  intro s t nnn hroom he
  obtain ⟨t', he', -, -, -, -, hsp, hentry⟩ := (hcall s nnn).1 ⟨s.sp.toNat, hroom⟩ rfl
  obtain rfl := Host.Outcome.next.inj (he.symm.trans he')
  obtain ⟨u, hu, -, -, -, hpc, hsp'⟩ := (hret t).1 ⟨s.sp.toNat, hroom⟩ hsp
  refine ⟨u, hu, ?_, BitVec.eq_of_toNat_eq hsp'⟩
  exact hpc.trans (BitVec.eq_of_toNat_eq (hentry.trans s.fetchAddr_add_two.symm))

end Sys2Proof.Machine
end

section
/-! SUPPORT. Register loads and the ALU: what a rule completes with that writes one register (O33 to O35, O39), or one register
and then the flag (O36 to O38). -/

namespace Sys2Proof.Machine

/-! ### The two shapes of a rule -/

section
variable {i : Instr} {s : State} {x : RegIx} {b f : Byte}

theorem CompletesInLine.imp {may : List Part} {P Q : State → Prop} (h : CompletesInLine i s may P)
    (hPQ : ∀ t, P t → Q t) : CompletesInLine i s may Q := by
  obtain ⟨t, he, hawait, hfb, hframe, hpc, hp⟩ := h
  exact ⟨t, he, hawait, hfb, hframe, hpc, hPQ t hp⟩

theorem completesInLine_writeV (he : exec i s = .next ((s.advance.writeV x b).complete false)) :
    CompletesInLine i s [.reg x] fun t => t.readV x = b :=
  ⟨_, he, rfl, rfl, onlyChanges_writeV s x b, rfl, (State.readV_writeV s.advance x x b).trans (if_pos rfl)⟩

/-- The flag is written last, so it stands in VF also when x is F, and the result in V[x] only when x is not (D5, R163). -/
theorem completesInLine_writeWithFlag {n : Nat} {g : Byte}
    (he : exec i s = .next ((s.advance.writeWithFlag x b f).complete false)) (hb : b.toNat = n) (hf : f = g) :
    CompletesInLine i s [.reg x, .reg vf] fun t => (x ≠ vf → (t.readV x).toNat = n) ∧ t.readV vf = g := by
  refine ⟨_, he, rfl, rfl, onlyChanges_writeWithFlag s x b f, rfl, fun hx => ?_, ?_⟩
  · rw [State.readV_complete, State.readV_writeWithFlag, if_neg hx, if_pos rfl, hb]
  · rw [State.readV_complete, State.readV_writeWithFlag, if_pos rfl, hf]

end

/-! ### Results and flags as numbers -/

theorem flagByte_decide (p : Prop) [Decidable p] : flagByte (decide p) = if p then 1 else 0 := by
  simp only [flagByte, decide_eq_true_eq]

theorem flagByte_toNat (c : Bool) : (flagByte c).toNat = c.toNat := by
  cases c <;> rfl

section
variable (a b : Byte)

theorem carryFlag_eq : carryFlag a b = if a.toNat + b.toNat > 255 then 1 else 0 := flagByte_decide _

theorem greaterFlag_eq : greaterFlag a b = if a.toNat > b.toNat then 1 else 0 := flagByte_decide _

/-- Bit 0 is the remainder the halving drops (R158). -/
theorem shiftOutLow_toNat : (shiftOutLow a).toNat = a.toNat % 2 := by
  rw [shiftOutLow, flagByte_toNat, BitVec.getLsbD, Nat.toNat_testBit, pow_zero, Nat.div_one]

/-- Bit 7 is the carry of the doubling: whether the byte is 128 or more (R160). -/
theorem shiftOutHigh_toNat : (shiftOutHigh a).toNat = a.toNat / 128 := by
  have ha := a.isLt
  rw [shiftOutHigh, flagByte_toNat, BitVec.getLsbD, Nat.toNat_testBit]
  omega

/-- The difference modulo 256, written without a negative number (R162). -/
theorem byte_toNat_sub : (a - b).toNat = (a.toNat + 256 - b.toNat) % 256 := by
  have hb := b.isLt
  rw [BitVec.toNat_sub]
  omega

theorem byte_toNat_shiftRight_one : (a >>> 1).toNat = a.toNat / 2 := by
  rw [BitVec.toNat_ushiftRight, Nat.shiftRight_eq_div_pow, pow_one]

theorem byte_toNat_shiftLeft_one : (a <<< 1).toNat = a.toNat * 2 % 256 := by
  rw [BitVec.toNat_shiftLeft, Nat.shiftLeft_eq, pow_one]

end

/-! ### Loads, ADD Vx, kk and the logic operations -/

/-- Settles O33: both rules write V[x] alone. -/
theorem registerLoads : Obligations.RegisterLoads :=
  ⟨encodedAs_row (.ldVxKk 0 0), encodedAs_row (.ldVxVy 0 0), fun s x y kk =>
    ⟨completesInLine_writeV (exec_ldVxKk s x kk), completesInLine_writeV (exec_ldVxVy s x y)⟩⟩

/-- Settles O34: the rule writes V[x] alone, and bytes add modulo 256. -/
theorem addImmediateWraps : Obligations.AddImmediateWraps :=
  ⟨encodedAs_row (.addVxKk 0 0), fun s x kk =>
    (completesInLine_writeV (exec_addVxKk s x kk)).imp fun t ht => by rw [ht, BitVec.toNat_add]⟩

/-- Settles O35: each rule writes V[x] alone, and the operations on bytes are those on their bits. -/
theorem logicActsBitByBit : Obligations.LogicActsBitByBit :=
  ⟨encodedAs_row (.orVxVy 0 0), encodedAs_row (.andVxVy 0 0), encodedAs_row (.xorVxVy 0 0), fun s x y =>
    ⟨(completesInLine_writeV (exec_orVxVy s x y)).imp fun t ht k _ => by rw [ht, BitVec.getLsbD_or],
      (completesInLine_writeV (exec_andVxVy s x y)).imp fun t ht k _ => by rw [ht, BitVec.getLsbD_and],
      (completesInLine_writeV (exec_xorVxVy s x y)).imp fun t ht k _ => by rw [ht, BitVec.getLsbD_xor]⟩⟩

/-- Settles O39: the advance leaves the step's random byte alone, whatever it is. -/
theorem rndMasksTheRandomByte : Obligations.RndMasksTheRandomByte :=
  ⟨encodedAs_row (.rndVxKk 0 0), fun s x kk =>
    (completesInLine_writeV (exec_rndVxKk s x kk)).imp fun t ht k _ => by rw [ht, BitVec.getLsbD_and]⟩

/-! ### The flag writers -/

/-- Settles O36: the flag is the carry of the same two bytes whose sum is the result. -/
theorem addSetsCarry : Obligations.AddSetsCarry :=
  ⟨encodedAs_row (.addVxVy 0 0), fun s x y =>
    completesInLine_writeWithFlag (exec_addVxVy s x y) (BitVec.toNat_add _ _) (carryFlag_eq _ _)⟩

/-- Settles O37: the two differ in which register is the minuend. -/
theorem subtractionsSetTheFlag : Obligations.SubtractionsSetTheFlag :=
  ⟨encodedAs_row (.subVxVy 0 0), encodedAs_row (.subnVxVy 0 0), fun s x y =>
    ⟨completesInLine_writeWithFlag (exec_subVxVy s x y) (byte_toNat_sub _ _) (greaterFlag_eq _ _),
      completesInLine_writeWithFlag (exec_subnVxVy s x y) (byte_toNat_sub _ _) (greaterFlag_eq _ _)⟩⟩

/-- Settles O38: the flag is the bit of V[x] that the halving, or the doubling modulo 256, drops. -/
theorem shiftsSetTheFlag : Obligations.ShiftsSetTheFlag :=
  ⟨encodedAs_row (.shrVx 0), encodedAs_row (.shlVx 0), fun s x =>
    ⟨(completesInLine_writeWithFlag (exec_shrVx s x) (byte_toNat_shiftRight_one _) rfl).imp
        fun t ⟨hx, hflag⟩ => ⟨hx, by rw [hflag, shiftOutLow_toNat]⟩,
      (completesInLine_writeWithFlag (exec_shlVx s x) (byte_toNat_shiftLeft_one _) rfl).imp
        fun t ⟨hx, hflag⟩ => ⟨hx, by rw [hflag, shiftOutHigh_toNat]⟩⟩⟩

end Sys2Proof.Machine
end

section
/-! SUPPORT. The display: CLS (O40), DRW pixel by pixel (O41), DRW twice (O42), and CLS followed by DRW (O43). -/

namespace Sys2Proof.Machine

/-! ### One draw -/

/-- The bit over row `r`, column `c` of the sprite that `DRW Vx, Vy, n` draws from `s` (R182, R184). -/
abbrev spriteOver (s : State) (x y : RegIx) (n r c : Nat) : Bool :=
  spriteBit s ((s.readV x).toNat % 64) ((s.readV y).toNat % 32) n r c

/-- Some visible set bit of the sprite falls on a pixel that is on (R188). -/
def Collides (s : State) (x y : RegIx) (n : Nat) : Prop :=
  ∃ r c, r < 32 ∧ c < 64 ∧ pixelAt s.fb r c = true ∧ spriteOver s x y n r c = true

/-- What a completed `DRW Vx, Vy, n` from `s` leaves in the frame and in VF of `t` (R181). -/
structure Drawn (s : State) (x y : RegIx) (n : Nat) (t : State) : Prop where
  pixel : ∀ r c, r < 32 → c < 64 → pixelAt t.fb r c = (pixelAt s.fb r c ^^ spriteOver s x y n r c)
  hit : Collides s x y n → t.readV vf = 1
  miss : ¬ Collides s x y n → t.readV vf = 0

theorem State.readV_withBlit_vf (s : State) (b : Blit) : (s.withBlit b).readV vf = flagByte b.hit :=
  (State.readV_writeV _ vf vf _).trans (if_pos rfl)

section
variable {s t : State} {x y : RegIx} {n : Nat}

/-- The flag tells the two cases apart. -/
theorem Drawn.vf_eq_one_iff (h : Drawn s x y n t) : t.readV vf = 1 ↔ Collides s x y n := by
  refine ⟨fun h1 => ?_, h.hit⟩
  by_contra hmiss
  exact absurd (h1.symm.trans (h.miss hmiss)) (by decide)

theorem completes_drw (x y : RegIx) (hfits : s.BlockFits n) :
    Completes (.drw x y n) s true [.pc, .fb, .reg vf] fun t => t.pc = s.fetchAddr + 2 ∧ Drawn s x y n t := by
  refine completes_of_exec (exec_drw_fits s x y n hfits) ⟨rfl, rfl, rfl, rfl⟩ (List.Subset.refl _)
    ⟨rfl, fun r c hr hc => drawSprite_pixel s _ _ n r c hr hc, fun hhit => ?_, fun hmiss => ?_⟩
  · rw [State.readV_complete, State.readV_withBlit_vf, (drawSprite_hit s _ _ n).mpr hhit]
    rfl
  · rw [State.readV_complete, State.readV_withBlit_vf,
      Bool.eq_false_iff.mpr (mt (drawSprite_hit s _ _ n).mp hmiss)]
    rfl

theorem drawn_of_exec (hfits : s.BlockFits n) (he : exec (.drw x y n) s = .next t) : Drawn s x y n t := by
  obtain ⟨u, hu, -, -, -, -, hdrawn⟩ := completes_drw x y hfits
  obtain rfl := Host.Outcome.next.inj (he.symm.trans hu)
  exact hdrawn

end

/-- Settles O41: a block that fits is drawn, and one that does not is the rule's own fault. -/
theorem drwXorsTheSprite : Obligations.DrwXorsTheSprite := by
  refine ⟨encodedAs_row (.drw 0 0 0), fun s x y n _ => ⟨fun hfits => ?_, fun hout => ?_⟩⟩
  · obtain ⟨t, he, hawait, hfb, hframe, hpc, hdrawn⟩ := completes_drw x y hfits
    exact ⟨t, he, hawait, hfb, hframe, hpc, hdrawn.pixel, hdrawn.hit, hdrawn.miss⟩
  · exact raises_of_takeFault _ s _ (exec_drw_out s x y n hout) (by decide)

/-! ### The same draw twice -/

section
variable {s t s2 u : State} {x y : RegIx} {n : Nat}

/-- The same coordinates, I and sprite bytes give the same sprite over every pixel. -/
theorem spriteOver_congr (hfits : s.BlockFits n) (hindex : s2.index = s.index) (hx : s2.readV x = s.readV x)
    (hy : s2.readV y = s.readV y) (hbytes : ∀ a ∈ s.span n, s2.readByte a = s.readByte a) (r c : Nat) :
    spriteOver s2 x y n r c = spriteOver s x y n r c := by
  rw [spriteOver, hx, hy]
  refine spriteBit_congr s s2 _ _ n hindex (fun k hk => hbytes _ ?_) r c
  rw [State.span_eq s n hfits]
  exact List.mem_map_of_mem (List.mem_range.mpr hk)

/-- Toggling the same pixels again toggles them back (R189). -/
theorem Drawn.fb_of_again (h : Drawn s x y n t) (h2 : Drawn s2 x y n u) (hfb : s2.fb = t.fb)
    (hsprite : ∀ r c, spriteOver s2 x y n r c = spriteOver s x y n r c) : u.fb = s.fb :=
  frame_ext _ _ fun r c hr hc => by
    rw [h2.pixel r c hr hc, hfb, h.pixel r c hr hc, hsprite, Bool.xor_assoc, Bool.xor_self, Bool.xor_false]

/-- Under a set sprite bit the first draw toggled the pixel, so the second collides where the first found it off. -/
theorem Drawn.collides_again_iff (h : Drawn s x y n t) (hfb : s2.fb = t.fb)
    (hsprite : ∀ r c, spriteOver s2 x y n r c = spriteOver s x y n r c) :
    Collides s2 x y n ↔
      ∃ r c, r < 32 ∧ c < 64 ∧ pixelAt s.fb r c = false ∧ spriteOver s x y n r c = true := by
  have hpixel : ∀ r c, r < 32 → c < 64 → spriteOver s x y n r c = true →
      pixelAt s2.fb r c = !pixelAt s.fb r c := fun r c hr hc hbit => by
    rw [hfb, h.pixel r c hr hc, hbit, Bool.xor_true]
  constructor
  · rintro ⟨r, c, hr, hc, hon, hbit⟩
    rw [hsprite] at hbit
    rw [hpixel r c hr hc hbit, Bool.not_eq_true'] at hon
    exact ⟨r, c, hr, hc, hon, hbit⟩
  · rintro ⟨r, c, hr, hc, hoff, hbit⟩
    refine ⟨r, c, hr, hc, ?_, (hsprite r c).trans hbit⟩
    rw [hpixel r c hr hc hbit, hoff, Bool.not_false]

end

/-- Settles O42: the second draw has the sprite of the first and the frame the first left. -/
theorem drawTwiceRestoresTheFrame : Obligations.DrawTwiceRestoresTheFrame := by
  intro s t s2 x y n _ hfits he hfb hcfg hindex hx hy hbytes
  have hfits2 : s2.BlockFits n := by rwa [State.BlockFits, hcfg, hindex]
  have hsprite := spriteOver_congr hfits hindex hx hy hbytes
  have hfirst := drawn_of_exec hfits he
  obtain ⟨u, hu, -, -, -, -, hsecond⟩ := completes_drw x y hfits2
  have hflag := hsecond.vf_eq_one_iff.trans (hfirst.collides_again_iff hfb hsprite)
  refine ⟨u, hu, hfirst.fb_of_again hsecond hfb hsprite, hflag, fun hoff => hflag.trans ?_⟩
  constructor
  · rintro ⟨r, c, hr, hc, -, hbit⟩
    exact ⟨r, c, hr, hc, hbit⟩
  · rintro ⟨r, c, hr, hc, hbit⟩
    exact ⟨r, c, hr, hc, hoff r c hr hc hbit, hbit⟩

/-! ### Clearing, and a draw on the cleared frame -/

/-- Settles O40: the rule writes the blank frame and nothing else. -/
theorem clsClearsTheFrame : Obligations.ClsClearsTheFrame :=
  ⟨encodedAs_row .cls, fun s => completes_of_exec (exec_cls s) ⟨rfl, rfl, rfl, rfl⟩ (List.Subset.refl _)
    ⟨rfl, fun r c _ _ => pixelAt_blankFrame r c⟩⟩

theorem fb_mem_instrWrites {i : Instr} {s : State} (h : .fb ∈ instrWrites i s) : i = .cls ∨ ∃ x y n, i = .drw x y n := by
  cases i <;> simp_all [instrWrites]

/-- Settles O43: the table of writes names the two, and on a blank frame the sprite meets no pixel that is on. -/
theorem clearThenDrawShowsTheSprite : Obligations.ClearThenDrawShowsTheSprite := by
  refine ⟨fun i s t h hfb => fb_mem_instrWrites (mem_instrWrites_of_exec h (by decide) hfb), ?_⟩
  intro s t s2 u x y n _ hcls hfb hfits hdrw
  obtain rfl := Host.Outcome.next.inj ((exec_cls s).symm.trans hcls)
  have hoff : ∀ r c, pixelAt s2.fb r c = false := fun r c => hfb ▸ pixelAt_blankFrame r c
  have hmiss : ¬ Collides s2 x y n := by
    rintro ⟨r, c, -, -, hon, -⟩
    rw [hoff] at hon
    exact absurd hon (by decide)
  have hdrawn := drawn_of_exec hfits hdrw
  refine ⟨hdrawn.miss hmiss, fun r c hr hc => ?_⟩
  rw [hdrawn.pixel r c hr hc, hoff, Bool.false_xor]

end Sys2Proof.Machine
end

section
/-! SUPPORT. Keys and timers: the key skips (O44), the timer transfers (O45), the key wait (O46) and the tick (O48, O49). -/

namespace Sys2Proof.Machine

/-! ### The tick -/

/-- The frame of a tick (R211). -/
theorem onlyChanges_tick (s : State) : OnlyChanges [.dt, .st] s s.tick := by
  intro p hp
  cases p with
  | dt | st => simp at hp
  | latch => exact ⟨rfl, rfl, rfl, rfl⟩
  | host => exact ⟨rfl, rfl⟩
  | reg | pc | index | sp | entry | fb | byte | await | fbChanged | cfg => rfl

/-- Settles O48: both timers count down by the same function, and the tick writes nothing else. -/
theorem tickCountsDown : Obligations.TickCountsDown := fun s =>
  ⟨tickDown_toNat s.dt, tickDown_toNat s.st, onlyChanges_tick s⟩

/-- Settles O49: no ticks subtract 0 from each timer, and one more tick subtracts one more. -/
theorem ticksAreRepeatedTicks : Obligations.TicksAreRepeatedTicks := fun s =>
  ⟨s.ticks_zero, s.ticks_succ⟩

/-- The buzzer is on exactly while ST is above 0 (R115). -/
theorem State.buzzer_iff_pos (s : State) : s.buzzer = true ↔ 0 < s.st.toNat := by
  rw [State.buzzer, decide_eq_true_iff, Nat.pos_iff_ne_zero, ne_eq, ne_eq, BitVec.toNat_eq]
  rfl

/-- A sound timer of m keeps the buzzer on for m ticks (R204). -/
theorem State.buzzer_ticks_iff (s : State) (n : Nat) : (s.ticks n).buzzer = true ↔ n < s.st.toNat := by
  rw [State.buzzer_iff_pos, State.ticks_st, tickDownBy_toNat, Nat.sub_pos_iff_lt]

/-! ### The instructions -/

/-- Settles O44: each rule checks V[x] first and then skips on the bit of that key. -/
theorem keySkips : Obligations.KeySkips := by
  refine ⟨encodedAs_row (.skpVx 0), encodedAs_row (.sknpVx 0), fun s x => ⟨fun hkey => ⟨?_, ?_⟩, fun hrange => ⟨?_, ?_⟩⟩⟩
  · exact completes_skipIf (exec_skpVx s x hkey) Iff.rfl
  · exact completes_skipIf (exec_sknpVx s x hkey) (Bool.not_eq_true' _).to_iff
  · exact raises_of_takeFault _ s _ (exec_skpVx_range s x hrange) (by decide)
  · exact raises_of_takeFault _ s _ (exec_sknpVx_range s x hrange) (by decide)

/-- Settles O45: each rule writes one part, and the buzzer follows the sound timer that LD ST, Vx leaves. -/
theorem timerTransfers : Obligations.TimerTransfers := by
  refine ⟨encodedAs_row (.ldVxDt 0), encodedAs_row (.ldDtVx 0), encodedAs_row (.ldStVx 0), fun s x => ⟨?_, ?_, ?_⟩⟩
  · exact completesInLine_writeV (exec_ldVxDt s x)
  · exact completes_of_exec (exec_ldDtVx s x) ⟨rfl, rfl, rfl, rfl⟩ (List.Subset.refl _) ⟨rfl, rfl⟩
  · exact completes_of_exec (exec_ldStVx s x) ⟨rfl, rfl, rfl, rfl⟩ (List.Subset.refl _)
      ⟨rfl, rfl, State.buzzer_ticks_iff _⟩

/-- A pressed key with none below it is the one found (R205). -/
theorem lowestKey_eq_some_of_lowest {keys : BitVec 16} {k : RegIx} (hk : keys.getLsbD k = true)
    (hlow : ∀ j : RegIx, j < k → keys.getLsbD j = false) : lowestKey keys = some k := by
  have hkeys : keys ≠ 0 := by
    rintro rfl
    simp at hk
  obtain ⟨m, hm⟩ := exists_lowestKey hkeys
  obtain ⟨hpressed, hlowest⟩ := lowestKey_eq_some keys m hm
  obtain hlt | rfl | hgt := lt_trichotomy m k
  · exact absurd hpressed (Bool.eq_false_iff.mp (hlow m hlt))
  · exact hm
  · exact absurd hk (Bool.eq_false_iff.mp (hlowest k hgt))

/-- Settles O46: with no key pressed the rule suspends, and otherwise it loads the lowest pressed key. -/
theorem keyWaitLoadsTheLowestKey : Obligations.KeyWaitLoadsTheLowestKey := by
  refine ⟨encodedAs_row (.ldVxK 0), fun s x => ⟨fun hkeys => ?_, fun k hk hlow => ?_⟩⟩
  · exact ⟨_, exec_ldVxK_wait s x hkeys, rfl, rfl, rfl, onlyChanges_suspend s⟩
  · have he := exec_ldVxK_key s x k (lowestKey_eq_some_of_lowest hk hlow)
    exact (completesInLine_writeV he).imp fun t ht => by
      rw [ht, BitVec.toNat_ofNat, Nat.mod_eq_of_lt (by omega)]

end Sys2Proof.Machine
end

section
/-! SUPPORT. The index register (O50) and the block transfers: LD B (O51), LD [I], Vx (O52) and LD Vx, [I] (O53). -/

namespace Sys2Proof.Machine

/-! ### The index register -/

/-- A rule that writes I leaves every other part alone, VF included. -/
theorem completesInLine_writeIndex {i : Instr} {s : State} {a : Addr}
    (he : exec i s = .next ({ s.advance with index := a }.complete false)) (hwrites : instrWrites i s = [.index]) :
    CompletesInLine i s [.index] fun t => t.index = a :=
  completes_of_exec he ⟨rfl, rfl, rfl, rfl⟩ (hwrites ▸ List.Subset.refl _) ⟨rfl, rfl⟩

/-- The low nibble of a byte as a number (R227). -/
theorem byte_toNat_and_low (b : Byte) : (b &&& 0x0F).toNat = b.toNat % 16 :=
  (BitVec.toNat_and b 0x0F).trans (Nat.and_two_pow_sub_one_eq_mod b.toNat 4)

/-- With the font in the reserved region (R17) the address of a glyph does not wrap. -/
theorem glyphAddr_toNat {c : Config} (hc : c.Legal) (b : Byte) :
    (glyphAddr c b).toNat = c.fontBase.toNat + 5 * (b.toNat % 16) := by
  have hglyph : c.fontBase.toNat + 5 * (b.toNat % 16) < 2 ^ 12 := by
    have hfont : c.fontBase.toNat + 80 ≤ 0x200 := hc
    omega
  rw [glyphAddr, byte_toNat_and_low, BitVec.toNat_ofNat, Nat.mod_eq_of_lt hglyph]

/-- Settles O50: each rule writes I alone; the sum wraps modulo 4096, and the address of a glyph does not. -/
theorem indexRegisterWrites : Obligations.IndexRegisterWrites :=
  ⟨encodedAs_row (.ldINnn 0), encodedAs_row (.addIVx 0), encodedAs_row (.ldFVx 0), fun s x nnn =>
    ⟨completesInLine_writeIndex (exec_ldINnn s nnn) rfl,
      (completesInLine_writeIndex (exec_addIVx s x) rfl).imp fun t ht => by rw [ht, BitVec.toNat_ofNat],
      fun hlegal => (completesInLine_writeIndex (exec_ldFVx s x) rfl).imp fun t ht => by
        rw [ht, glyphAddr_toNat hlegal]⟩⟩

/-! ### Block stores -/

/-- Every offset of a block that fits has a data address (R66, R253). -/
theorem effAddr_of_blockFits {s : State} {n k : Nat} (hfits : s.BlockFits n) (hk : k < n) :
    effAddr s.cfg.addrOverflow s.index k = some (BitVec.ofNat 12 (s.index.toNat + k)) := by
  rw [effAddr_eq, if_pos (hfits.imp_right fun hend => by omega)]

/-- A rule that stores a block advances the PC and changes the bytes of the span alone. -/
theorem completesInLine_writeBytes {i : Instr} {s : State} {n : Nat} {l : List (Addr × Byte)} {post : State → Prop}
    (he : exec i s = .next ((s.advance.writeBytes l).complete false))
    (hwrites : instrWrites i s = (s.span n).map Part.byte) (hpost : ∀ t, exec i s = .next t → post t) :
    CompletesInLine i s ((s.span n).map Part.byte) post := by
  refine completes_of_exec he ?_ (hwrites ▸ List.Subset.refl _) ⟨?_, hpost _ he⟩
  · exact same_writeBytes s.advance l .latch (by simp)
  · rw [State.complete_pc, State.writeBytes_pc, State.advance_pc]

/-- `LD B, Vx` leaves each digit of V[x] at its own address, and a digit fits in a byte (R228). -/
theorem readByte_of_exec_ldBVx {s t : State} {x : RegIx} (hfits : s.BlockFits 3) (h : exec (.ldBVx x) s = .next t)
    {k d : Nat} (hd : (decimalDigits (s.readV x))[k]? = some (BitVec.ofNat 8 d)) (hbyte : d < 2 ^ 8) :
    (t.readByte (BitVec.ofNat 12 (s.index.toNat + k))).toNat = d := by
  obtain rfl := Host.Outcome.next.inj ((exec_ldBVx_fits s x hfits).symm.trans h)
  obtain ⟨hk, hkd⟩ := List.getElem?_eq_some_iff.mp hd
  have hlen : (decimalDigits (s.readV x)).length = 3 := rfl
  rw [State.readByte_complete, ← hlen, s.advance.readByte_writeBytes_block _ _ (by omega) hk, hkd,
    BitVec.toNat_ofNat, Nat.mod_eq_of_lt hbyte]

/-- Settles O51: the span is three addresses from I on, and the store leaves one digit at each. -/
theorem storeDigits : Obligations.StoreDigits := by
  refine ⟨encodedAs_row (.ldBVx 0), fun s x => ⟨fun hfits => ?_, fun hout => ?_⟩⟩
  · exact completesInLine_writeBytes (exec_ldBVx_fits s x hfits) rfl fun t ht =>
      ⟨_, _, _, s.span_eq 3 hfits, Nat.mod_eq_of_lt s.index.isLt, BitVec.toNat_ofNat _ 12, BitVec.toNat_ofNat _ 12,
        readByte_of_exec_ldBVx hfits ht rfl (by omega), readByte_of_exec_ldBVx hfits ht rfl (by omega),
        readByte_of_exec_ldBVx hfits ht rfl (by omega)⟩
  · exact raises_of_takeFault _ s _ (exec_ldBVx_out s x hout) (by decide)

/-- Settles O52: the addresses of the block are EA(I, 0) to EA(I, x), and the store leaves V[k] at the k-th. -/
theorem storeRegisters : Obligations.StoreRegisters := by
  refine ⟨encodedAs_row (.ldMemVx 0), fun s x => ⟨fun hfits => ?_, fun hout => ?_⟩⟩
  · refine completesInLine_writeBytes (exec_ldMemVx_fits s x hfits) rfl fun t ht k hk => ?_
    exact ⟨_, effAddr_of_blockFits hfits (Nat.lt_succ_of_le hk), BitVec.toNat_ofNat _ 12,
      readByte_of_exec_ldMemVx hfits ht hk⟩
  · exact raises_of_takeFault _ s _ (exec_ldMemVx_out s x hout) (by decide)

/-! ### The block load -/

/-- The registers up to x, as the claims list them and as the table of writes does. -/
theorem filter_le_eq_filter_lt (x : RegIx) :
    (List.finRange 16).filter (· ≤ x) = (List.finRange 16).filter (·.val < x.val + 1) :=
  List.filter_congr fun _ _ => decide_eq_decide.mpr Nat.lt_succ_iff.symm

/-- Settles O53: register k is read from byte k of the block. -/
theorem loadRegisters : Obligations.LoadRegisters := by
  refine ⟨encodedAs_row (.ldVxMem 0), fun s x => ⟨fun hfits => ?_, fun hout => ?_⟩⟩
  · rw [filter_le_eq_filter_lt]
    refine completes_of_exec (exec_ldVxMem_fits s x hfits) ⟨rfl, rfl, rfl, rfl⟩ (List.Subset.refl _)
      ⟨rfl, fun k hk => ?_⟩
    have hlt : k.val < x.val + 1 := Nat.lt_succ_of_le hk
    rw [State.readV_complete, State.readV_writeRegs, List.getElem?_map, List.getElem?_range hlt,
      Option.map_some, Option.getD_some]
  · exact raises_of_takeFault _ s _ (exec_ldVxMem_out s x hout) (by decide)

end Sys2Proof.Machine
end

section
/-! SUPPORT. The faults of spec/60_exceptions.md: every fault is precise (O13), the reserved fetch (O10), and the block past
0xFFF (O54). -/

namespace Sys2Proof.Machine

section
variable {s t : State}

/-! ### The fault path -/

/-- A step that ends with the latch set took the fault of R257's checks, and nothing else: a completed instruction and a
suspended one leave the latch clear. -/
theorem eq_takeFault_of_fault (hf : s.fault = false) (hc : cycle s = .next t) (ht : t.fault = true) :
    ∃ c, stepFault s = some c ∧ c ≠ .none ∧ t = s.takeFault c := by
  rcases cycle_unfaulted s hf with ⟨c, hsf, hcause, he⟩ | ⟨i, -, -, -, he, ⟨hwait, -⟩ | ⟨u, hdone, -, hb⟩⟩
  · exact ⟨c, hsf, hcause, Host.Outcome.next.inj (hc.symm.trans he)⟩
  · obtain rfl := Host.Outcome.next.inj (hc.symm.trans (he.trans hwait))
    exact absurd (hf.symm.trans ht) Bool.false_ne_true
  · obtain rfl := Host.Outcome.next.inj (hc.symm.trans (he.trans hdone))
    exact absurd (hf.symm.trans (hb.fault.symm.trans ht)) Bool.false_ne_true

theorem fault_of_outcome_eq_fault {c : FaultCause} (h : t.outcome = .fault c) : t.fault = true :=
  t.control_eq_faulted.mp (t.control_eq_outcome_control.trans (congrArg StepOutcome.control h))

/-! ### The accessible block -/

/-- Under ADDR_OVERFLOW = fault a block that passes 0xFFF is not accessible (R253). -/
theorem not_blockFits_of_past_end {n : Nat} (hmode : s.cfg.addrOverflow = .fault) (hend : 0x1000 < s.index.toNat + n) :
    ¬ s.BlockFits n := by
  rintro (hwrap | hfits)
  · simp [hmode] at hwrap
  · omega

/-- Only a block that is not accessible raises MEM_RANGE; every other check has another cause (R250). -/
theorem exists_not_blockFits_of_instrFault {i : Instr} (h : instrFault i s = some .memRange) : ∃ n, ¬ s.BlockFits n := by
  cases i with
  | drw _ _ n => exact ⟨n, (Option.ite_none_left_eq_some.mp h).1⟩
  | ldBVx => exact ⟨3, (Option.ite_none_left_eq_some.mp h).1⟩
  | ldMemVx x | ldVxMem x => exact ⟨x.val + 1, (Option.ite_none_left_eq_some.mp h).1⟩
  | call | ret | skpVx | sknpVx => cases (Option.ite_none_right_eq_some.mp h).2
  | _ => cases h

theorem stepFault_ne_memRange_of_wrap (hmode : s.cfg.addrOverflow = .wrap) : stepFault s ≠ some .memRange := by
  unfold stepFault
  split
  · simp
  · split
    · simp
    · intro h
      obtain ⟨n, hout⟩ := exists_not_blockFits_of_instrFault h
      exact hout (.inl hmode)

end

/-! ### The claims -/

/-- Settles O10: the fetch address is checked before the word is decoded, and the fault path records no word for it. -/
theorem reservedFetchFaults : Obligations.ReservedFetchFaults := fun s hf ha =>
  ⟨_, cycle_of_reserved s hf ha, faultLatched_takeFault s .reservedFetch⟩

/-- Settles O13: a step that latches a fault took the fault path, whose frame is that of R252. -/
theorem faultsArePrecise : Obligations.FaultsArePrecise := by
  intro s t hf hc ht
  obtain ⟨c, -, hcause, rfl⟩ := eq_takeFault_of_fault hf hc ht
  exact ⟨faultLatched_takeFault s c, hcause, s.outcome_takeFault c, rfl⟩

/-- Settles O54: under fault a block past 0xFFF is not accessible, and under wrap every block is. -/
theorem memRangeOnlyUnderFault : Obligations.MemRangeOnlyUnderFault := by
  refine fun s => ⟨fun hmode x y => ⟨fun n hend => ?_, fun hend => ?_, fun hend => ?_⟩, fun hmode hf t hc ho => ?_⟩
  · have hout : ¬ s.BlockFits n := not_blockFits_of_past_end hmode (by omega)
    exact raises_of_takeFault _ s _ (exec_drw_out s x y n hout) (by decide)
  · have hout : ¬ s.BlockFits 3 := not_blockFits_of_past_end hmode (by omega)
    exact raises_of_takeFault _ s _ (exec_ldBVx_out s x hout) (by decide)
  · have hout : ¬ s.BlockFits (x.val + 1) := not_blockFits_of_past_end hmode (by omega)
    exact ⟨raises_of_takeFault _ s _ (exec_ldMemVx_out s x hout) (by decide),
      raises_of_takeFault _ s _ (exec_ldVxMem_out s x hout) (by decide)⟩
  · obtain ⟨c, hsf, -, rfl⟩ := eq_takeFault_of_fault hf hc (fault_of_outcome_eq_fault ho)
    obtain rfl : c = .memRange := StepOutcome.fault.inj ho
    exact stepFault_ne_memRange_of_wrap hmode hsf

end Sys2Proof.Machine
end

section
/-! SUPPORT. The claims of spec/70_reset_and_hazards.md: the reset event (O18), and the first step with no program loaded
(O19). -/

namespace Sys2Proof.Machine

/-! ### The first step after reset -/

section
variable {s : State}

theorem ResetValues.fetchAddr_eq (h : ResetValues s) : s.fetchAddr = 0x200 :=
  (s.fetchAddr_of_lt (by simp [h.pc])).trans h.pc

/-- A legal font ends below 0x200 (R17), so a core with the reset values fetches two bytes of 0. -/
theorem ResetValues.fetchWord_eq_zero (h : ResetValues s) (hlegal : s.cfg.Legal) : s.fetchWord = 0x0000 := by
  have hzero (a : Addr) (ha : 0x200 ≤ a.toNat) : s.readByte a = 0 := h.zeros a (.inr (hlegal.trans ha))
  calc s.fetchWord
    _ = ofBytes (s.readByte 0x200) (s.readByte 0x201) := by rw [State.fetchWord, h.fetchAddr_eq]; rfl
    _ = 0x0000 := by rw [hzero 0x200 (by decide), hzero 0x201 (by decide)]; rfl

/-- R285: the word 0x0000 is no instruction (R88), and the core takes the fault path on it (R105). -/
theorem ResetValues.cycle_eq (h : ResetValues s) (hlegal : s.cfg.Legal) : cycle s = .next (s.takeFault .invalidOpcode) := by
  have hclear : s.fault = false := h.latch.1
  have hrefused : decode s.fetchWord = .error (.invalidOpcode 0x0000) := by rw [h.fetchWord_eq_zero hlegal]; rfl
  exact cycle_of_invalid s hclear (by simp [h.fetchAddr_eq]) hrefused

end

/-! ### The claims -/

/-- Settles O18: the event replaces all but the parameters and the host's schedule by the values of reset. -/
theorem rstGivesResetValues : Obligations.RstGivesResetValues := fun s hlegal =>
  ⟨s.rst_resetValues hlegal, s.rst_cfg, s.rst.control_eq_ready.mpr ⟨rfl, rfl⟩, rfl⟩

/-- Settles O19: the fetched word is 0x0000, and the end of the step leaves the latch as the fault path set it. -/
theorem firstStepWithNoProgramFaults : Obligations.FirstStepWithNoProgramFaults := by
  have hvalues : ResetValues State.reset := resetStateHasResetValues.1
  have hword : State.reset.fetchWord = 0x0000 := hvalues.fetchWord_eq_zero defaultConfig_legal
  have hstep := step_of_cycle _ _ (hvalues.cycle_eq defaultConfig_legal)
  exact ⟨_, hstep, hword, rfl, rfl, hvalues.fetchAddr_eq, hword⟩

end Sys2Proof.Machine
end
